-- ==== Sys2Proof/Word.lean ====
section
/-! DEFINITION. The word types of the block (spec/00_scope.md R21): 64-bit registers and 64-bit engine words,
32-bit engine words and command words, bytes of BUF. Bit 0 is the least significant bit. -/

namespace Sys2Proof

/-- A u64: an ARG or RES register, a word of a 64-bit engine, a draw (R21). -/
abbrev Word := BitVec 64

/-- A u32: a word of a 32-bit engine (R21) or a command word (R100). -/
abbrev Word32 := BitVec 32

/-- A byte of BUF (R48). -/
abbrev Byte := BitVec 8

/-- The SLOT field of a command word: four bits (R100). -/
abbrev SlotNum := BitVec 4

end Sys2Proof
end

