-- ==== Sys2Proof/Config.lean ====
section
/-! DEFINITION. What an implementation fixes (spec/00_scope.md R20) and the free values.
A decided parameter is an abbrev with the spec's value. An OPEN parameter and a free value are opaque:
nothing can evaluate them, so whatever is proved holds for every value they could have. -/

namespace Sys2Proof

/-- The six engines of R2, by name; the value of the OPEN parameter DEFAULT_ENGINE is one of them (R115). -/
inductive EngineKind where
  | sm | xs | mt | pcg | cmwc | cc
  deriving DecidableEq, Repr, Inhabited

namespace Config

/-! Decided parameters (R20). -/

/-- NSLOTS, the number of engine slots (D2). -/
abbrev nslots : Nat := 16
/-- BUFSIZE, the bytes of BUF (D3). -/
abbrev bufSize : Nat := 4096
/-- CMWC_MIN_CYCLE, the smallest CMWC lag table. -/
abbrev cmwcMinCycle : Nat := 16
/-- CMWC_MAX_CYCLE, the largest CMWC lag table the block stores (D16). -/
abbrev cmwcMaxCycle : Nat := 65536
/-- CMWC_DEFAULT_CYCLE, the cycle that the D flag asks for (D16). -/
abbrev cmwcDefaultCycle : Word := 4096#64
/-- CMWC_CARRY_BOUND, below which the CMWC carry seed must lie (R168). -/
abbrev cmwcCarryBound : Word32 := 809430660#32
/-- PCG_DEFAULT_INC, the increment that the D flag asks for (D44). -/
abbrev pcgDefaultInc : Word := 0x14057B7EF767814F#64
/-- IFVER, the interface version reported in CAPS (D1). -/
abbrev ifver : Nat := 1
/-- The bytes of port offsets that R77 lays out: 0 to 0x10FFF. -/
abbrev portSpan : Nat := 0x11000

/-! OPEN parameters (R20, R79, R115; 93 I10; log entry 8). -/

/-- CHACHA_PAD[0..5], six u32 words with no value in any source (D18). -/
opaque chachaPad : Fin 6 → Word32
/-- CHAR_LO, the least code of NEXTCHAR (D28). -/
opaque charLo : Word
/-- Any value at all: charHi is made of it and charLo. -/
opaque charHiRaw : Word
/-- CHAR_HI, the greatest code of NEXTCHAR (D28), with the constraint CHAR_LO ≤ CHAR_HI: every such pair is
the pair (charLo, charHi) for some value of the two opaque constants. -/
def charHi : Word := if charLo ≤ charHiRaw then charHiRaw else charLo
/-- PORT_BASE, where the platform puts the port (R79, D37): no operation of the block depends on it. -/
opaque portBase : Nat
/-- The exponent, above 4, of CMWC_SMALL_CYCLE (R115): any of 0 to 7. -/
opaque cmwcSmallExponent : Fin 8
/-- CMWC_SMALL_CYCLE (R115): a power of two, 16 ≤ value < 4096. -/
def cmwcSmallCycle : Word := BitVec.ofNat 64 (2 ^ (4 + cmwcSmallExponent.val))
/-- DEFAULT_ENGINE, the engine of the registry name default (R115). -/
opaque defaultEngine : EngineKind

/-! Free values: each is applied to plain data of the state (the counter State.fresh, or the epoch of BUF). -/

/-- Entropy(): the k-th fresh 64-bit draw from the entropy input (R47, 93 I4; log entry 5). -/
opaque entropy : Nat → Word
/-- The sign of the k-th NaN result (93 I5; log entry 6). -/
opaque nanSign : Nat → Bool
/-- The fraction of the k-th NaN result, before the value zero is excluded (93 I5; log entry 6). -/
opaque nanFraction : Nat → BitVec 52
/-- What the k-th ChaCha configuration leaves in blk, which has no meaningful value (R186; log entry 7). -/
opaque blkFree : Nat → Fin 16 → Word32
/-- What byte a of BUF holds after the reset of epoch k until something writes it (R48, 93 I3; log entry 4). -/
opaque bufFree : Nat → Nat → Byte

end Config
end Sys2Proof
end

