-- ==== Sys2Proof/Syntax.lean ====
section
/-! DEFINITION. The commands of the block: one constructor per row of spec/opcode_table.json (spec/30_encoding.md
R106). A constructor carries SLOT and exactly the flags its command admits (R102, R103): e is the E flag (the
seed comes from the entropy input), d the D flag (the second parameter is the default). -/

namespace Sys2Proof

/-- The twenty-one commands (R106). -/
inductive Instr where
  | cfgSm (slot : SlotNum) (e : Bool)
  | cfgXs (slot : SlotNum) (e : Bool)
  | cfgXss (slot : SlotNum)
  | cfgMt (slot : SlotNum) (e : Bool)
  | cfgPcg (slot : SlotNum) (e d : Bool)
  | cfgCmwc (slot : SlotNum) (e d : Bool)
  | cfgCc (slot : SlotNum) (e d : Bool)
  | next64 (slot : SlotNum)
  | next32 (slot : SlotNum)
  | nextDbl (slot : SlotNum)
  | nextInt (slot : SlotNum)
  | nextBytes (slot : SlotNum)
  | nextPct (slot : SlotNum)
  | gamble (slot : SlotNum)
  | gambleD (slot : SlotNum)
  | nextDRange (slot : SlotNum)
  | nextBool (slot : SlotNum)
  | nextChar (slot : SlotNum)
  | nextIndex (slot : SlotNum)
  | shuffle (slot : SlotNum)
  | nextPolar (slot : SlotNum)
  deriving DecidableEq, Repr

/-- The SLOT field of a command (R100, R101). -/
def Instr.slot : Instr → SlotNum
  | .cfgSm s _ => s
  | .cfgXs s _ => s
  | .cfgXss s => s
  | .cfgMt s _ => s
  | .cfgPcg s _ _ => s
  | .cfgCmwc s _ _ => s
  | .cfgCc s _ _ => s
  | .next64 s => s
  | .next32 s => s
  | .nextDbl s => s
  | .nextInt s => s
  | .nextBytes s => s
  | .nextPct s => s
  | .gamble s => s
  | .gambleD s => s
  | .nextDRange s => s
  | .nextBool s => s
  | .nextChar s => s
  | .nextIndex s => s
  | .shuffle s => s
  | .nextPolar s => s

end Sys2Proof
end

