-- ==== Sys2Proof/WellFormed.lean ====
section
/-! DEFINITION. Which terms of Instr are commands of a block. The one thing a term can get wrong is its slot
(spec/30_encoding.md R101: a SLOT value s ≥ NSLOTS is illegal): a flag a command does not admit cannot be
written as a term, and the words that carry one are refused by Decode. NSLOTS may be 1 to 16 (spec/00_scope.md
R20); with the decided 16 every four-bit slot is legal. -/

namespace Sys2Proof

/-- Why a term of Instr is no command of a block. -/
inductive IllFormed where
  /-- R101: SLOT ≥ NSLOTS. -/
  | slotOutOfRange
  deriving DecidableEq, Repr

/-- What is wrong with i on a block of n slots, if anything (R101). -/
def Instr.illFormedOn (n : Nat) (i : Instr) : Option IllFormed :=
  if i.slot.toNat < n then none else some .slotOutOfRange

/-- i is a command of the block with the decided NSLOTS (R20, R101). -/
abbrev Instr.WellFormed (i : Instr) : Prop := i.illFormedOn Config.nslots = none

end Sys2Proof
end

