-- ==== Sys2Proof/Decode.lean ====
section
/-! DEFINITION. The command word (spec/30_encoding.md): its fields, the decoder, which is total and refuses by
name in the order of R110, the encoder, the mask and match rows of R107, and the assembler text of R112. -/

namespace Sys2Proof

/-! The fields of a command word (R100). -/

/-- OP, bits 7:0. -/
def opField (w : Word32) : BitVec 8 := w.extractLsb' 0 8
/-- SLOT, bits 11:8. -/
def slotField (w : Word32) : SlotNum := w.extractLsb' 8 4
/-- E, bit 12. -/
def eField (w : Word32) : Bool := w.getLsbD 12
/-- D, bit 13. -/
def dField (w : Word32) : Bool := w.getLsbD 13
/-- RSV, bits 31:14. -/
def rsvField (w : Word32) : BitVec 18 := w.extractLsb' 14 18

/-- Why a word is no command: the five checks of R110. Each raises IllegalCommand (R301). -/
inductive DecodeError where
  /-- R104: a bit of RSV is set. -/
  | reservedBits
  /-- R108: the OP is not in the opcode map. -/
  | reservedOp
  /-- R102: E is set on a command that does not admit it. -/
  | flagENotAdmitted
  /-- R103: D is set on a command that does not admit it. -/
  | flagDNotAdmitted
  /-- R101: SLOT ≥ NSLOTS. -/
  | slotOutOfRange
  deriving DecidableEq, Repr

/-- The command of an OP with the given fields, by the opcode map (R106); none for a reserved OP (R108). A flag
the command does not admit is dropped: decode has refused the word before. -/
def opcodeMap (op : BitVec 8) (s : SlotNum) (e d : Bool) : Option Instr :=
  match op.toNat with
  | 0x01 => some (.cfgSm s e)
  | 0x02 => some (.cfgXs s e)
  | 0x03 => some (.cfgXss s)
  | 0x04 => some (.cfgMt s e)
  | 0x05 => some (.cfgPcg s e d)
  | 0x06 => some (.cfgCmwc s e d)
  | 0x07 => some (.cfgCc s e d)
  | 0x10 => some (.next64 s)
  | 0x11 => some (.next32 s)
  | 0x12 => some (.nextDbl s)
  | 0x13 => some (.nextInt s)
  | 0x14 => some (.nextBytes s)
  | 0x20 => some (.nextPct s)
  | 0x21 => some (.gamble s)
  | 0x22 => some (.gambleD s)
  | 0x23 => some (.nextDRange s)
  | 0x24 => some (.nextBool s)
  | 0x25 => some (.nextChar s)
  | 0x26 => some (.nextIndex s)
  | 0x27 => some (.shuffle s)
  | 0x28 => some (.nextPolar s)
  | _ => none

/-- The OPs that admit E: CFG.SM, CFG.XS, CFG.MT, CFG.PCG, CFG.CMWC, CFG.CC (R102, R106). -/
def admitsE (op : BitVec 8) : Bool :=
  match op.toNat with
  | 0x01 => true
  | 0x02 => true
  | 0x04 => true
  | 0x05 => true
  | 0x06 => true
  | 0x07 => true
  | _ => false

/-- The OPs that admit D: CFG.PCG, CFG.CMWC, CFG.CC (R103, R106). -/
def admitsD (op : BitVec 8) : Bool :=
  match op.toNat with
  | 0x05 => true
  | 0x06 => true
  | 0x07 => true
  | _ => false

/-- Decoding, total on every 32-bit word: the first failing check decides (R110). -/
def decode (w : Word32) : Except DecodeError Instr :=
  if rsvField w ≠ 0 then .error .reservedBits
  else
    match opcodeMap (opField w) (slotField w) (eField w) (dField w) with
    | none => .error .reservedOp
    | some i =>
      if eField w && !admitsE (opField w) then .error .flagENotAdmitted
      else if dField w && !admitsD (opField w) then .error .flagDNotAdmitted
      else if Config.nslots ≤ (slotField w).toNat then .error .slotOutOfRange
      else .ok i

/-! The encoder, from the same tables. -/

/-- The OP of a command (R106). -/
def Instr.op : Instr → BitVec 8
  | .cfgSm _ _ => 0x01
  | .cfgXs _ _ => 0x02
  | .cfgXss _ => 0x03
  | .cfgMt _ _ => 0x04
  | .cfgPcg _ _ _ => 0x05
  | .cfgCmwc _ _ _ => 0x06
  | .cfgCc _ _ _ => 0x07
  | .next64 _ => 0x10
  | .next32 _ => 0x11
  | .nextDbl _ => 0x12
  | .nextInt _ => 0x13
  | .nextBytes _ => 0x14
  | .nextPct _ => 0x20
  | .gamble _ => 0x21
  | .gambleD _ => 0x22
  | .nextDRange _ => 0x23
  | .nextBool _ => 0x24
  | .nextChar _ => 0x25
  | .nextIndex _ => 0x26
  | .shuffle _ => 0x27
  | .nextPolar _ => 0x28

/-- The E flag of a command (R102): 0 where it is not admitted. -/
def Instr.flagE : Instr → Bool
  | .cfgSm _ e => e
  | .cfgXs _ e => e
  | .cfgMt _ e => e
  | .cfgPcg _ e _ => e
  | .cfgCmwc _ e _ => e
  | .cfgCc _ e _ => e
  | .cfgXss _ => false
  | .next64 _ => false
  | .next32 _ => false
  | .nextDbl _ => false
  | .nextInt _ => false
  | .nextBytes _ => false
  | .nextPct _ => false
  | .gamble _ => false
  | .gambleD _ => false
  | .nextDRange _ => false
  | .nextBool _ => false
  | .nextChar _ => false
  | .nextIndex _ => false
  | .shuffle _ => false
  | .nextPolar _ => false

/-- The D flag of a command (R103): 0 where it is not admitted. -/
def Instr.flagD : Instr → Bool
  | .cfgPcg _ _ d => d
  | .cfgCmwc _ _ d => d
  | .cfgCc _ _ d => d
  | .cfgSm _ _ => false
  | .cfgXs _ _ => false
  | .cfgXss _ => false
  | .cfgMt _ _ => false
  | .next64 _ => false
  | .next32 _ => false
  | .nextDbl _ => false
  | .nextInt _ => false
  | .nextBytes _ => false
  | .nextPct _ => false
  | .gamble _ => false
  | .gambleD _ => false
  | .nextDRange _ => false
  | .nextBool _ => false
  | .nextChar _ => false
  | .nextIndex _ => false
  | .shuffle _ => false
  | .nextPolar _ => false

/-- A command word with RSV = 0, laid out as R100 says. -/
def commandWord (op : BitVec 8) (s : SlotNum) (e d : Bool) : Word32 :=
  0#18 ++ BitVec.ofBool d ++ BitVec.ofBool e ++ s ++ op

/-- The word of a command (R100, R106). -/
def encode (i : Instr) : Word32 := commandWord i.op i.slot i.flagE i.flagD

/-! The mask and match rows (R107, spec/opcode_table.json). -/

/-- A row of the opcode table. -/
structure OpcodeRow where
  mnemonic : String
  pattern : Word32
  mask : Word32
  deriving DecidableEq, Repr

/-- A word selects a row when its masked bits are the row's match value (R107). -/
def OpcodeRow.selects (r : OpcodeRow) (w : Word32) : Bool := w &&& r.mask == r.pattern

/-- The configuration rows of spec/opcode_table.json. -/
def configureRows : List OpcodeRow :=
  [⟨"CFG.SM", 0x00000001, 0xFFFFE0FF⟩, ⟨"CFG.XS", 0x00000002, 0xFFFFE0FF⟩, ⟨"CFG.XSS", 0x00000003, 0xFFFFF0FF⟩,
   ⟨"CFG.MT", 0x00000004, 0xFFFFE0FF⟩, ⟨"CFG.PCG", 0x00000005, 0xFFFFC0FF⟩, ⟨"CFG.CMWC", 0x00000006, 0xFFFFC0FF⟩,
   ⟨"CFG.CC", 0x00000007, 0xFFFFC0FF⟩]

/-- The contract rows of spec/opcode_table.json. -/
def contractRows : List OpcodeRow :=
  [⟨"NEXT64", 0x00000010, 0xFFFFF0FF⟩, ⟨"NEXT32", 0x00000011, 0xFFFFF0FF⟩, ⟨"NEXTDBL", 0x00000012, 0xFFFFF0FF⟩,
   ⟨"NEXTINT", 0x00000013, 0xFFFFF0FF⟩, ⟨"NEXTBYTES", 0x00000014, 0xFFFFF0FF⟩]

/-- The facade rows of spec/opcode_table.json. -/
def facadeRows : List OpcodeRow :=
  [⟨"NEXTPCT", 0x00000020, 0xFFFFF0FF⟩, ⟨"GAMBLE", 0x00000021, 0xFFFFF0FF⟩, ⟨"GAMBLED", 0x00000022, 0xFFFFF0FF⟩,
   ⟨"NEXTDRANGE", 0x00000023, 0xFFFFF0FF⟩, ⟨"NEXTBOOL", 0x00000024, 0xFFFFF0FF⟩, ⟨"NEXTCHAR", 0x00000025, 0xFFFFF0FF⟩,
   ⟨"NEXTINDEX", 0x00000026, 0xFFFFF0FF⟩, ⟨"SHUFFLE", 0x00000027, 0xFFFFF0FF⟩, ⟨"NEXTPOLAR", 0x00000028, 0xFFFFF0FF⟩]

/-- The opcode table (R106, R107). -/
def opcodeRows : List OpcodeRow := configureRows ++ contractRows ++ facadeRows

/-! The assembler text (R112). -/

/-- The mnemonic of a command, as the opcode table spells it. -/
def Instr.mnemonic : Instr → String
  | .cfgSm _ _ => "CFG.SM"
  | .cfgXs _ _ => "CFG.XS"
  | .cfgXss _ => "CFG.XSS"
  | .cfgMt _ _ => "CFG.MT"
  | .cfgPcg _ _ _ => "CFG.PCG"
  | .cfgCmwc _ _ _ => "CFG.CMWC"
  | .cfgCc _ _ _ => "CFG.CC"
  | .next64 _ => "NEXT64"
  | .next32 _ => "NEXT32"
  | .nextDbl _ => "NEXTDBL"
  | .nextInt _ => "NEXTINT"
  | .nextBytes _ => "NEXTBYTES"
  | .nextPct _ => "NEXTPCT"
  | .gamble _ => "GAMBLE"
  | .gambleD _ => "GAMBLED"
  | .nextDRange _ => "NEXTDRANGE"
  | .nextBool _ => "NEXTBOOL"
  | .nextChar _ => "NEXTCHAR"
  | .nextIndex _ => "NEXTINDEX"
  | .shuffle _ => "SHUFFLE"
  | .nextPolar _ => "NEXTPOLAR"

/-- MNEMONIC slot, then ", E" and ", D" for the flags set, in that order (R112). -/
def Instr.assembly (i : Instr) : String :=
  i.mnemonic ++ " " ++ toString i.slot.toNat ++ (if i.flagE then ", E" else "") ++ (if i.flagD then ", D" else "")

/-- The instruction that the decoder reads from a table word of nbits bits: a command is one 32-bit word, with no
byte order of its own (R71, R100), so the bits above nbits are 0 and the word goes to decode as it stands. -/
def decodeTableWord (nbits w : Nat) : Option Instr := (decode (BitVec.ofNat 32 (w % 2 ^ nbits))).toOption

end Sys2Proof
end

