-- ==== Sys2Proof/Machine/State.lean ====
section
/-! DEFINITION. The state of the block (spec/10_state.md R30) as plain data, the operations the host can do at the
port (spec/20_memory.md R77), and the state after reset (R50). Fields that are the model's own, and no register of
the block, say so; INVENTORY.md lists them. -/

namespace Sys2Proof.Machine

/-! The engine state vectors (R39 to R45). -/

/-- Xoshiro256** (R41): xs[0..3]. -/
structure Xoshiro where
  s0 : Word
  s1 : Word
  s2 : Word
  s3 : Word
  deriving DecidableEq, Repr

/-- MT19937 (R42): mt[0..623] and mti, an index in 0..624; 624 means the block of words is exhausted. -/
structure Mersenne where
  mt : Vector Word32 624
  mti : Fin 625
  deriving DecidableEq, Repr

/-- PCG32 (R43): the LCG state and the increment. -/
structure Pcg where
  pst : Word
  pinc : Word
  deriving DecidableEq, Repr

/-- CMWC (R44): the table size N, the lag table Q[0..N-1], the carry word c and the index ci of the entry the
previous draw used. That q has n entries, n is a legal size and ci < n is part of Sys2Proof.EngineOk. -/
structure Cmwc where
  n : Nat
  q : List Word32
  c : Word32
  ci : Nat
  deriving DecidableEq, Repr

/-- ChaCha-stream (R45): the block input, the current keystream block, and the index in 0..16 of its next
unconsumed word; 16 means the block is consumed. -/
structure ChaCha where
  inp : Vector Word32 16
  blk : Vector Word32 16
  pos : Fin 17
  deriving DecidableEq, Repr

/-- A configured engine with its state vector: the record of a slot that is not EMPTY (R39). -/
inductive Engine where
  /-- SplitMix64 (R40): the counter-style state word. -/
  | sm (t : Word)
  | xs (x : Xoshiro)
  | mt (m : Mersenne)
  | pcg (p : Pcg)
  | cmwc (q : Cmwc)
  | cc (k : ChaCha)
  deriving DecidableEq, Repr

/-! Error codes (R300). -/

/-- STATUS.CODE: the codes 0 to 6; the reserved codes 7 to 15 have no constructor (93 I7). -/
inductive ErrorCode where
  /-- 0: the command completed. -/
  | ok
  /-- 1: raised by decoding (R301). -/
  | illegalCommand
  /-- 2: the slot is EMPTY (R302). -/
  | notConfigured
  /-- 3: raised by CFG.XSS, CFG.PCG, CFG.CMWC (R303). -/
  | configurationError
  /-- 4: raised by NEXTINT, NEXTDRANGE, NEXTINDEX (R303). -/
  | invalidArgument
  /-- 5: raised by NEXTBYTES, SHUFFLE (R303). -/
  | bufferRange
  /-- 6: raised by SHUFFLE (R303). -/
  | misaligned
  deriving DecidableEq, Repr

/-! BUF (R48). -/

/-- BUF as the bytes written since the last reset, in canonical form (Memory.wf): addresses strictly rising. An
address that is not listed has not been written since that reset and holds the free byte of its epoch
(Memory.unlisted): the value is not constrained and stays the same until something writes it (R48, 93 I3; log
entry 4). -/
structure Memory where
  epoch : Nat
  cells : List Host.Cell
  deriving DecidableEq, Repr

/-! The host's operations (R77). -/

/-- One operation of the host at the port, at a byte offset from the port's base (R77, R79), or the platform's
reset, which takes effect between two port operations (R340, R341). The width of an access is the one R74 gives
its target: 64 bits for a register, 32 for CMD, one byte for BUF (log entry 15). Offsets past 0x10FFF are no
offsets of the port. The operations R77 names are abbreviations of read and write in Machine/Port.lean. -/
inductive PortOp where
  | read (offset : Fin Config.portSpan)
  | write (offset : Fin Config.portSpan) (value : Word)
  | reset
  deriving DecidableEq, Repr

/-! The state. -/

/-- The state of the block. The fields arg to buf are the spec's (R30); hostOps, readData and fresh are the
model's own (log entries 1, 2, 3). CMD holds nothing (R34); STATUS, ERRCMD, CAPS and SLOTINFO as the host reads them are
computed (Machine/Flags.lean). -/
structure State where
  /-- ARG[0..3] (R32). -/
  arg : Vector Word 4
  /-- RES[0] (R33). -/
  res0 : Word
  /-- RES[1] (R33). -/
  res1 : Word
  /-- STATUS.CODE (R35). -/
  code : ErrorCode
  /-- STATUS.STICKY (R35). -/
  sticky : Bool
  /-- ERRCMD[31:0] (R36). -/
  errcmd : Word32
  /-- The slots 0 to NSLOTS-1 (R39): none is EMPTY. -/
  slots : Vector (Option Engine) Config.nslots
  /-- BUF (R48). -/
  buf : Memory
  /-- The port operations the host has still to do, the next one first: the host's program (R31). -/
  hostOps : List PortOp
  /-- What the port returned for the host's latest read. -/
  readData : Word
  /-- How many free values have been taken: the next one is the Config constant applied to this number. -/
  fresh : Nat
  deriving DecidableEq, Repr

/-- The state right after reset (R50, R340): every register 0, every slot EMPTY, BUF unspecified. The model's own
fields start at nothing to do, 0 and 0 (log entries 1, 2, 3). -/
def State.reset : State where
  arg := #v[0, 0, 0, 0]
  res0 := 0
  res1 := 0
  code := .ok
  sticky := false
  errcmd := 0
  slots := #v[none, none, none, none, none, none, none, none, none, none, none, none, none, none, none, none]
  buf := ⟨0, []⟩
  hostOps := []
  readData := 0
  fresh := 0

/-- No step of the block stops with a fault: every error of the spec is an ordinary outcome, reported in STATUS and
ERRCMD, after which the block keeps running (R304), so there is no constructor (log entry 10). -/
inductive Fault where
  deriving DecidableEq, Repr

/-- Why a step has no meaning. -/
inductive Refusal where
  /-- Raised by an arm of exec for an instruction that has no meaning yet; safe, since nothing is claimed of it. No
  arm raises it in this model. -/
  | notModelled (mnemonic : String)
  deriving DecidableEq, Repr

end Sys2Proof.Machine
end

