-- ==== Sys2Proof/Machine/Operands.lean ====
section
/-! DEFINITION. The bit-field and fixed-width primitives (spec/00_scope.md R21, R22; spec/40_engine_cores.md R130)
and the operand forms: how a command reads ARG (spec/30_encoding.md R105) and where a CFG.* command takes its seed
and its second parameter from (spec/41_configure.md R201, R207, R208, R209). -/

namespace Sys2Proof.Machine

/-! Fields and concatenation (R21). -/

/-- hi32(x) = x[63:32]. -/
def hi32 (x : Word) : Word32 := x.extractLsb' 32 32
/-- lo32(x) = x[31:0]. -/
def lo32 (x : Word) : Word32 := x.extractLsb' 0 32
/-- concat64(hi, lo), hi in the high bits. -/
def concat64 (hi lo : Word32) : Word := hi ++ lo
/-- zext_64 of a u32. -/
def zext64 (x : Word32) : Word := x.setWidth 64

/-! Rotations and xor-shifts (R22, R130). R130 names both widths; the engines use xsr and the masked u32 form. -/

/-- rotl_64(x, k), 0 ≤ k < 64. -/
def rotl64 (x : Word) (k : Nat) : Word := (x <<< k) ||| (x >>> (64 - k))
/-- rotl_32(x, k), 0 ≤ k < 32. -/
def rotl32 (x : Word32) (k : Nat) : Word32 := (x <<< k) ||| (x >>> (32 - k))
/-- rotr_32(x, k), 0 ≤ k < 32; the left amount is (-k) & 31, so k = 0 is the identity. -/
def rotr32 (x : Word32) (k : Nat) : Word32 := (x >>> k) ||| (x <<< ((32 - k) % 32))
/-- xsr_64(x, k) = x ^ (x >> k). -/
def xsr64 (x : Word) (k : Nat) : Word := x ^^^ (x >>> k)
/-- xsr_32(x, k) = x ^ (x >> k). -/
def xsr32 (x : Word32) (k : Nat) : Word32 := x ^^^ (x >>> k)
/-- xsl_64(x, k) = x ^ (x << k). -/
def xsl64 (x : Word) (k : Nat) : Word := x ^^^ (x <<< k)
/-- xsl_32(x, k) = x ^ (x << k). -/
def xsl32 (x : Word32) (k : Nat) : Word32 := x ^^^ (x <<< k)
/-- The masked left xor-shift x ^ ((x << k) & m) of a u64. -/
def xslMasked64 (x : Word) (k : Nat) (m : Word) : Word := x ^^^ ((x <<< k) &&& m)
/-- The masked left xor-shift x ^ ((x << k) & m) of a u32. -/
def xslMasked (x : Word32) (k : Nat) (m : Word32) : Word32 := x ^^^ ((x <<< k) &&& m)

/-! ARG as the commands read it (R105). A u64 operand is the register itself, an f64 operand its bit pattern. -/

/-- i64(ARG[i]): the signed value of an operand. -/
def argInt (s : State) (i : Fin 4) : Int := s.arg[i].toInt
/-- int(ARG[i]): the unsigned value of an operand. -/
def argNat (s : State) (i : Fin 4) : Nat := s.arg[i].toNat

/-- SEED(E) (R201): with E the next draw of the entropy input, which is used up, else ARG[0]. -/
def takeSeed (e : Bool) (s : State) : Word × State :=
  if e then (Config.entropy s.fresh, { s with fresh := s.fresh + 1 }) else (s.arg[0], s)

/-- The increment of CFG.PCG (R103, R207). -/
def pcgIncrement (d : Bool) (s : State) : Word := if d then Config.pcgDefaultInc else s.arg[1]
/-- The cycle of CFG.CMWC (R103, R208). -/
def cmwcCycle (d : Bool) (s : State) : Word := if d then Config.cmwcDefaultCycle else s.arg[1]
/-- The stream identifier of CFG.CC (R103, R209). -/
def ccStream (d : Bool) (s : State) : Word := if d then 0 else s.arg[1]

end Sys2Proof.Machine
end

