-- ==== Sys2Proof/Machine/Engines.lean ====
section
/-! DEFINITION. The six engine cores (spec/40_engine_cores.md): constants, seeding, state update and output. A draw
answers its output and the engine's new state. All arithmetic is modular in the word's width (R22). The constants
that the spec marks "from general knowledge" are listed in log entry 9. -/

namespace Sys2Proof.Machine

/-! SplitMix64 (R131 to R135). -/

/-- GAMMA, the increment (R131). -/
def gamma : Word := 0x9E3779B97F4A7C15#64

/-- SM_MIX (R132). -/
def smMix (z : Word) : Word :=
  let z1 := xsr64 z 30 * 0xBF58476D1CE4E5B9#64
  let z2 := xsr64 z1 27 * 0x94D049BB133111EB#64
  xsr64 z2 31

/-- SM_NEXT64 (R133): the output is computed from the advanced state. -/
def smNext64 (t : Word) : Word × Word := (smMix (t + gamma), t + gamma)

/-- The private SplitMix64 state after k steps from t (R134, R135): each step adds GAMMA. -/
def smAfter (k : Nat) (t : Word) : Word := t + BitVec.ofNat 64 k * gamma

/-- SM_EXPAND64(seed, n) (R134). -/
def smExpand64 : Word → Nat → List Word
  | _, 0 => []
  | t, n + 1 => (smNext64 t).1 :: smExpand64 (smNext64 t).2 n

/-- The 32-bit words of a seed expansion: the high half of one full step each (R134). -/
def smExpand32 : Word → Nat → List Word32
  | _, 0 => []
  | t, n + 1 => hi32 (smNext64 t).1 :: smExpand32 (smNext64 t).2 n

/-! Xoshiro256** (R140 to R142). -/

/-- XS_NEXT64 (R140): the output is computed from the state before the update. -/
def xsNext64 (x : Xoshiro) : Word × Xoshiro :=
  let result := rotl64 (x.s1 * 5) 7 * 9
  let t := x.s1 <<< 17
  let s2 := x.s2 ^^^ x.s0
  let s3 := x.s3 ^^^ x.s1
  let s1 := x.s1 ^^^ s2
  let s0 := x.s0 ^^^ s3
  (result, ⟨s0, s1, s2 ^^^ t, rotl64 s3 45⟩)

/-- Seeding (R141): word k of the expansion goes to xs[k]. -/
def xsSeed (seed : Word) : Xoshiro :=
  let d0 := smNext64 seed
  let d1 := smNext64 d0.2
  let d2 := smNext64 d1.2
  let d3 := smNext64 d2.2
  ⟨d0.1, d1.1, d2.1, d3.1⟩

/-! MT19937 (R150 to R155). -/

/-- The words mt[i], mt[i+1], ... of MT_INIT (R151), n of them, x being mt[i]. -/
def mtWords : Nat → Nat → Word32 → List Word32
  | 0, _, _ => []
  | n + 1, i, x => x :: mtWords n (i + 1) (1812433253#32 * xsr32 x 30 + BitVec.ofNat 32 (i + 1))

theorem mtWords_length (n i : Nat) (x : Word32) : (mtWords n i x).length = n := by
  induction n generalizing i x with
  | zero => rfl
  | succ n ih => simp [mtWords, ih]

/-- MT_INIT (R151): mti = 624, so that the first draw twists. -/
def mtInit (seed32 : Word32) : Mersenne :=
  ⟨⟨⟨mtWords 624 0 seed32⟩, by simp [mtWords_length]⟩, 624⟩

/-- The new value of entry k in MT_TWIST, from the entries as they are when k is reached (R152). -/
def mtTwistWord (mt : Vector Word32 624) (k : Nat) (hk : k < 624) : Word32 :=
  let y := (mt[k] &&& 0x80000000#32) ||| (mt[(k + 1) % 624]'(Nat.mod_lt _ (by decide)) &&& 0x7FFFFFFF#32)
  mt[(k + 397) % 624]'(Nat.mod_lt _ (by decide)) ^^^ (y >>> 1) ^^^ (if y.getLsbD 0 then 0x9908B0DF#32 else 0#32)

/-- MT_TWIST (R152): in place and in index order, k = 0 to 623. -/
def mtTwist (mt : Vector Word32 624) : Vector Word32 624 :=
  Nat.fold 624 (fun k hk m => m.set k (mtTwistWord m k hk)) mt

/-- MT_TEMPER (R153). -/
def mtTemper (y : Word32) : Word32 :=
  let y1 := xsr32 y 11
  let y2 := xslMasked y1 7 0x9D2C5680#32
  let y3 := xslMasked y2 15 0xEFC60000#32
  xsr32 y3 18

/-- MT_NEXT32 (R154): the block is regenerated inside the draw that finds it exhausted, and the draw then takes
entry 0. -/
def mtNext32 (m : Mersenne) : Word32 × Mersenne :=
  if h : m.mti.val < 624 then (mtTemper m.mt[m.mti.val], ⟨m.mt, ⟨m.mti.val + 1, by omega⟩⟩)
  else (mtTemper (mtTwist m.mt)[0], ⟨mtTwist m.mt, 1⟩)

/-! PCG32 (R160 to R164). -/

/-- PCG_STEP (R161). -/
def pcgStep (pst pinc : Word) : Word := pst * 0x5851F42D4C957F2D#64 + pinc

/-- PCG_OUT (R162): the XSH-RR permutation. -/
def pcgOut (old : Word) : Word32 := rotr32 (lo32 (xsr64 old 18 >>> 27)) (old >>> 59).toNat

/-- PCG_NEXT32 (R163): the output is computed from the state before the step. -/
def pcgNext32 (p : Pcg) : Word32 × Pcg := (pcgOut p.pst, ⟨pcgStep p.pst p.pinc, p.pinc⟩)

/-- PCG_INIT (R164). -/
def pcgInit (seed inc : Word) : Pcg := ⟨pcgStep (pcgStep 0 inc + seed) inc, inc⟩

/-! CMWC (R165 to R168). -/

/-- CMWC_NEXT32 (R166). A table entry that is absent reads as 0: no configured slot has one (log entry 12). -/
def cmwcNext32 (k : Cmwc) : Word32 × Cmwc :=
  let ci := (k.ci + 1) &&& (k.n - 1)
  let t := 18782#64 * zext64 (k.q.getD ci 0) + zext64 k.c
  let c0 := hi32 t
  let x0 := lo32 t + c0
  let x := if x0 < c0 then x0 + 1 else x0
  let c := if x0 < c0 then c0 + 1 else c0
  let v := 0xFFFFFFFE#32 - x
  (v, ⟨k.n, k.q.set ci v, c, ci⟩)

/-- The carry draws of CMWC_INIT (R168): draw until the word is below the bound, with at most k redraws. -/
def cmwcCarry : Nat → Word → Word32
  | 0, t => hi32 (smNext64 t).1
  | k + 1, t =>
    if hi32 (smNext64 t).1 < Config.cmwcCarryBound then hi32 (smNext64 t).1 else cmwcCarry k (smNext64 t).2

/-- CMWC_INIT (R168): the table, then the carry, from one private SplitMix64 state. The bound 2^64 on the redraws
is never reached, since within 2^64 draws SplitMix64 returns every value (R135; log entry 11). -/
def cmwcInit (seed : Word) (cycle : Nat) : Cmwc :=
  ⟨cycle, smExpand32 seed cycle, cmwcCarry (2 ^ 64) (smAfter cycle seed), cycle - 1⟩

/-! ChaCha-stream (R180 to R187). -/

/-- QR(x, a, b, c, d) (R181). -/
def quarterRound (x0 : Vector Word32 16) (a b c d : Fin 16) : Vector Word32 16 :=
  let x1 := x0.set a (x0[a] + x0[b])
  let x2 := x1.set d (rotl32 (x1[d] ^^^ x1[a]) 16)
  let x3 := x2.set c (x2[c] + x2[d])
  let x4 := x3.set b (rotl32 (x3[b] ^^^ x3[c]) 12)
  let x5 := x4.set a (x4[a] + x4[b])
  let x6 := x5.set d (rotl32 (x5[d] ^^^ x5[a]) 8)
  let x7 := x6.set c (x6[c] + x6[d])
  x7.set b (rotl32 (x7[b] ^^^ x7[c]) 7)

/-- DOUBLEROUND (R183): four column rounds, then four diagonal rounds (C3). -/
def doubleRound (x : Vector Word32 16) : Vector Word32 16 :=
  let c := quarterRound (quarterRound (quarterRound (quarterRound x 0 4 8 12) 1 5 9 13) 2 6 10 14) 3 7 11 15
  quarterRound (quarterRound (quarterRound (quarterRound c 0 5 10 15) 1 6 11 12) 2 7 8 13) 3 4 9 14

/-- The block counter {inp[13], inp[12]} (R45). -/
def ccCounter (k : ChaCha) : Word := concat64 k.inp[13] k.inp[12]

/-- CC_BLOCK (R184): twenty rounds, the original words added, and the counter advanced, wrapping. -/
def ccBlock (k : ChaCha) : ChaCha :=
  let x := Nat.repeat doubleRound 10 k.inp
  let ctr := ccCounter k + 1
  ⟨(k.inp.set 12 (lo32 ctr)).set 13 (hi32 ctr), Vector.zipWith (· + ·) x k.inp, 0⟩

/-- CC_NEXT32 (R185): a consumed block is regenerated first, and the draw then takes word 0. -/
def ccNext32 (k : ChaCha) : Word32 × ChaCha :=
  if h : k.pos.val < 16 then (k.blk[k.pos.val], ⟨k.inp, k.blk, ⟨k.pos.val + 1, by omega⟩⟩)
  else ((ccBlock k).blk[0], ⟨(ccBlock k).inp, (ccBlock k).blk, 1⟩)

/-- The block input of a configuration with counter 0 (R182), for the pad words given. -/
def ccInput (pad : Fin 6 → Word32) (seed stream : Word) : Vector Word32 16 :=
  #v[0x61707865, 0x3320646E, 0x79622D32, 0x6B206574, lo32 seed, hi32 seed,
     pad 0, pad 1, pad 2, pad 3, pad 4, pad 5, 0, 0, lo32 stream, hi32 stream]

/-- The configured state (R186): blk is whatever is given, and pos = 16, so that the first draw generates block 0. -/
def ccInit (pad : Fin 6 → Word32) (blk : Fin 16 → Word32) (seed stream : Word) : ChaCha :=
  ⟨ccInput pad seed stream, #v[blk 0, blk 1, blk 2, blk 3, blk 4, blk 5, blk 6, blk 7, blk 8, blk 9, blk 10, blk 11,
    blk 12, blk 13, blk 14, blk 15], 16⟩

/-! The native draw (R190) and the draws of the contract (R230). -/

/-- The native width of an engine (R27). -/
def nativeWidth : Engine → Nat
  | .sm _ => 64
  | .xs _ => 64
  | .mt _ => 32
  | .pcg _ => 32
  | .cmwc _ => 32
  | .cc _ => 32

/-- NATIVE (R190): a 32-bit output is answered in the low half. -/
def native : Engine → Word × Engine
  | .sm t => ((smNext64 t).1, .sm (smNext64 t).2)
  | .xs x => ((xsNext64 x).1, .xs (xsNext64 x).2)
  | .mt m => (zext64 (mtNext32 m).1, .mt (mtNext32 m).2)
  | .pcg p => (zext64 (pcgNext32 p).1, .pcg (pcgNext32 p).2)
  | .cmwc k => (zext64 (cmwcNext32 k).1, .cmwc (cmwcNext32 k).2)
  | .cc k => (zext64 (ccNext32 k).1, .cc (ccNext32 k).2)

/-- Draw64 (R230): a 64-bit engine's word, or two 32-bit draws as {first, second}. -/
def draw64 (g : Engine) : Word × Engine :=
  let d := native g
  if nativeWidth g = 64 then d
  else
    let d' := native d.2
    (concat64 (lo32 d.1) (lo32 d'.1), d'.2)

/-- Draw32 (R230): a 32-bit engine's word, or the high half of one full 64-bit step. -/
def draw32 (g : Engine) : Word32 × Engine :=
  let d := native g
  if nativeWidth g = 32 then (lo32 d.1, d.2) else (hi32 d.1, d.2)

end Sys2Proof.Machine
end

