-- ==== Sys2Proof/Machine/Flags.lean ====
section
/-! DEFINITION. The status registers as the host reads them (spec/10_state.md R35 to R38). The block has no
arithmetic flags (R22, R35): STATUS.CODE and STATUS.STICKY are its only status bits. -/

namespace Sys2Proof.Machine

/-- The number of an error code (R300). -/
def errorNumber : ErrorCode → BitVec 4
  | .ok => 0
  | .illegalCommand => 1
  | .notConfigured => 2
  | .configurationError => 3
  | .invalidArgument => 4
  | .bufferRange => 5
  | .misaligned => 6

/-- STATUS (R35): CODE in bits 3:0, STICKY in bit 8, every other bit 0. -/
def statusReg (s : State) : Word := 0#55 ++ BitVec.ofBool s.sticky ++ 0#4 ++ errorNumber s.code

/-- ERRCMD (R36): the word in bits 31:0, bits 63:32 zero. -/
def errcmdReg (s : State) : Word := zext64 s.errcmd

/-- CAPS (R37): NSLOTS in 4:0, log2 BUFSIZE in 12:8, log2 CMWC_MAX_CYCLE in 20:16, IFVER in 31:24. -/
def capsReg : Word :=
  0#32 ++ BitVec.ofNat 8 Config.ifver ++ 0#3 ++ BitVec.ofNat 5 (Nat.log2 Config.cmwcMaxCycle) ++ 0#3 ++
    BitVec.ofNat 5 (Nat.log2 Config.bufSize) ++ 0#3 ++ BitVec.ofNat 5 Config.nslots

/-- The engine code of a slot (R39): 0 is EMPTY. -/
def algCode : Option Engine → BitVec 4
  | none => 0
  | some (.sm _) => 1
  | some (.xs _) => 2
  | some (.mt _) => 3
  | some (.pcg _) => 4
  | some (.cmwc _) => 5
  | some (.cc _) => 6

/-- CYCLE_LOG2 of a slot (R38): log2 of the table size of a CMWC engine, else 0. -/
def cycleLog2 : Option Engine → BitVec 5
  | some (.cmwc k) => BitVec.ofNat 5 (Nat.log2 k.n)
  | some (.sm _) => 0
  | some (.xs _) => 0
  | some (.mt _) => 0
  | some (.pcg _) => 0
  | some (.cc _) => 0
  | none => 0

/-- SLOTINFO[s] (R38): ALG in bits 3:0, CYCLE_LOG2 in bits 12:8, every other bit 0. -/
def slotInfoReg (s : State) (k : Fin Config.nslots) : Word :=
  0#51 ++ cycleLog2 s.slots[k] ++ 0#4 ++ algCode s.slots[k]

end Sys2Proof.Machine
end

