-- ==== Sys2Proof/Machine/Float64.lean ====
section
/-! DEFINITION. Binary64 (spec/00_scope.md R23): fadd, fsub, fmul, fsqrt with rounding to nearest, ties to even, and
the quiet comparison flt, on bit patterns. A finite value is an integer number of units of 2^-1074, the least
positive binary64; an operation computes its exact result on such integers and rounds once, at the end. Where the
result is a NaN its pattern is left open (93 I5), so an operation takes the pattern to return as its first
argument (log entry 6). -/

namespace Sys2Proof.Machine

/-- A binary64 bit pattern. -/
abbrev F64 := BitVec 64

/-! Fields and classes. -/

/-- The sign bit. -/
def F64.sign (a : F64) : Bool := a.getLsbD 63
/-- The exponent field, bits 62:52. -/
def F64.exponent (a : F64) : Nat := (a.extractLsb' 52 11).toNat
/-- The fraction field, bits 51:0. -/
def F64.fraction (a : F64) : Nat := (a.extractLsb' 0 52).toNat
/-- Exponent all ones and fraction not zero. -/
def F64.isNaN (a : F64) : Bool := a.exponent == 0x7FF && a.fraction != 0
/-- Exponent all ones and fraction zero. -/
def F64.isInf (a : F64) : Bool := a.exponent == 0x7FF && a.fraction == 0
/-- +0 or -0. -/
def F64.isZero (a : F64) : Bool := a.exponent == 0 && a.fraction == 0
/-- Neither a NaN nor an infinity. -/
def F64.isFinite (a : F64) : Bool := a.exponent != 0x7FF

/-- The magnitude of a finite value, in units of 2^-1074. -/
def F64.magnitude (a : F64) : Nat :=
  if a.exponent = 0 then a.fraction else (2 ^ 52 + a.fraction) * 2 ^ (a.exponent - 1)

/-- A finite value, in units of 2^-1074: the value is a.units · 2^-1074. -/
def F64.units (a : F64) : Int := if a.sign then -(a.magnitude : Int) else (a.magnitude : Int)

/-- A pattern from its sign and its low 63 bits. -/
def F64.ofSignMagnitude (sign : Bool) (low : Nat) : F64 := BitVec.ofBool sign ++ BitVec.ofNat 63 low

/-- The low 63 bits of an infinity. -/
def F64.infinityLow : Nat := 0x7FF * 2 ^ 52

/-- The NaN patterns of a free sign and a free fraction: every NaN encoding is one of them (93 I5). -/
def nanPattern (sign : Bool) (fraction : BitVec 52) : F64 :=
  BitVec.ofBool sign ++ 0x7FF#11 ++ (if fraction = 0 then 1#52 else fraction)

/-- The pattern of the NaN that the k-th free value gives. -/
def freeNaN (k : Nat) : F64 := nanPattern (Config.nanSign k) (Config.nanFraction k)

/-! Rounding to nearest, ties to even. -/

/-- m / 2^k rounded to an integer, to nearest, ties to even. -/
def roundShift (m k : Nat) : Nat :=
  let q := m >>> k
  let r := m % 2 ^ k
  if 2 * r < 2 ^ k then q
  else if 2 ^ k < 2 * r then q + 1
  else if k = 0 then q
  else q + q % 2

/-- The low 63 bits of the binary64 nearest to the magnitude (m / 2^k) · 2^-1074. With e the number of low bits
that a 53-bit significand of the value cannot hold, the significand is rounded at 2^e units and e is added to the
exponent field; a significand that rounds up to 2^53 carries into the exponent by itself; and a value that rounds
to 2^1024 or more is infinity. -/
def roundMagnitude (m k : Nat) : Nat :=
  let e := Nat.log2 m - (k + 52)
  min (e * 2 ^ 52 + roundShift m (k + e)) F64.infinityLow

/-- The binary64 nearest to the value of sign and magnitude (m / 2^k) · 2^-1074. -/
def roundTo (sign : Bool) (m k : Nat) : F64 := F64.ofSignMagnitude sign (roundMagnitude m k)

/-! The operations (R23). -/

/-- toF64(n), n < 2^53: the binary64 value of n, exact. -/
def toF64 (n : Nat) : F64 := roundTo false (n * 2 ^ 1074) 0

/-- The negative of a value: the sign bit inverted. -/
def fneg (a : F64) : F64 := a ^^^ 0x8000000000000000#64

/-- fadd. An exact zero sum of operands of unlike sign is +0. -/
def fadd (nan a b : F64) : F64 :=
  if a.isNaN || b.isNaN then nan
  else if a.isInf then (if b.isInf && a.sign != b.sign then nan else a)
  else if b.isInf then b
  else
    let t := a.units + b.units
    if t = 0 then F64.ofSignMagnitude (a.sign && b.sign) 0
    else roundTo (decide (t < 0)) t.natAbs 0

/-- fsub(a, b) = fadd(a, -b). -/
def fsub (nan a b : F64) : F64 := fadd nan a (fneg b)

/-- fmul. The product of two magnitudes in units of 2^-1074 is in units of 2^-2148. -/
def fmul (nan a b : F64) : F64 :=
  let sign := a.sign != b.sign
  if a.isNaN || b.isNaN then nan
  else if a.isInf || b.isInf then
    (if a.isZero || b.isZero then nan else F64.ofSignMagnitude sign F64.infinityLow)
  else roundTo sign (a.magnitude * b.magnitude) 1074

/-- The integer square root of n by digits: r is the root found so far, and the bits 2^(k-1), ..., 2, 1 are still
to be tried. -/
def isqrtFrom (n : Nat) : Nat → Nat → Nat
  | 0, r => r
  | k + 1, r => if (r + 2 ^ k) * (r + 2 ^ k) ≤ n then isqrtFrom n k (r + 2 ^ k) else isqrtFrom n k r

/-- The greatest r with r * r ≤ n. -/
def isqrt (n : Nat) : Nat := isqrtFrom n (Nat.log2 n / 2 + 1) 0

/-- fsqrt. The root of A units of 2^-1074 is the root of A · 2^1074 in those units; the root is taken to an integer,
which has more than 500 bits, and one sticky bit below it says whether it is exact. -/
def fsqrt (nan a : F64) : F64 :=
  if a.isNaN then nan
  else if a.isZero then a
  else if a.sign then nan
  else if a.isInf then a
  else
    let n := a.magnitude * 2 ^ 1074
    let r := isqrt n
    roundTo false (2 * r + (if r * r = n then 0 else 1)) 1

/-- The sign and magnitude of a pattern that is not a NaN, as one integer in the order of the values: both zeros
give 0. -/
def F64.orderKey (a : F64) : Int :=
  let low := (a.extractLsb' 0 63).toNat
  if a.sign then -(low : Int) else (low : Int)

/-- flt, the quiet less-than: false if either operand is a NaN. -/
def flt (a b : F64) : Bool := !a.isNaN && !b.isNaN && decide (a.orderKey < b.orderKey)

end Sys2Proof.Machine
end

