-- ==== Sys2Proof/Machine/Ops.lean ====
section
/-! DEFINITION. The shared operations: BUF (spec/20_memory.md R70, spec/00_scope.md R24), the slots, taking an error
(spec/60_exceptions.md R304) and completing (R305), and the reductions and conversions that the drawing commands
share (spec/42_contract.md R231, R234, R236). -/

namespace Sys2Proof.Machine

/-! BUF. -/

/-- The byte listed for address a, if there is one. -/
def lookupCell : List Host.Cell → Nat → Option Byte
  | [], _ => none
  | c :: cs, a => if c.1 = a then some c.2 else lookupCell cs a

/-- The list with address a holding b, sorted if it was. -/
def insertCell : List Host.Cell → Nat → Byte → List Host.Cell
  | [], a, b => [(a, b)]
  | c :: cs, a, b =>
    if a < c.1 then (a, b) :: c :: cs
    else if a = c.1 then (a, b) :: cs
    else c :: insertCell cs a b

/-- Every listed address is at least lo and below BUFSIZE, and the addresses rise strictly. -/
def cellsOk : Nat → List Host.Cell → Bool
  | _, [] => true
  | lo, c :: cs => decide (lo ≤ c.1) && decide (c.1 < Config.bufSize) && cellsOk (c.1 + 1) cs

/-- The canonical form of BUF: addresses of BUF only, strictly rising. -/
def Memory.wf (m : Memory) : Bool := cellsOk 0 m.cells

/-- What an address that is not listed holds: the free byte of the epoch (R48, 93 I3; log entry 4). -/
def Memory.unlisted (m : Memory) (a : Nat) : Byte := Config.bufFree m.epoch a

/-- BUF[a]. -/
def Memory.read (m : Memory) (a : Nat) : Byte := (lookupCell m.cells a).getD (m.unlisted a)

/-- BUF[a] <- b. BUF has no address past BUFSIZE - 1 (R48), so nothing is stored there; no operation of the block
asks for it. -/
def Memory.write (m : Memory) (a : Nat) (b : Byte) : Memory :=
  if a < Config.bufSize then ⟨m.epoch, insertCell m.cells a b⟩ else m

/-- MemRead(a, n) (R24, R70): n bytes, the least significant at the lowest address. -/
def memRead (m : Memory) (a : Nat) : Nat → Nat
  | 0 => 0
  | n + 1 => (m.read a).toNat + 256 * memRead m (a + 1) n

/-- MemWrite(a, n, v) (R24, R70): the n low bytes of v, the least significant at the lowest address. -/
def memWrite (m : Memory) (a : Nat) : Nat → Word → Memory
  | 0, _ => m
  | n + 1, v => memWrite (m.write a (v.extractLsb' 0 8)) (a + 1) n (v >>> 8)

/-! Slots. -/

theorem slotNum_lt (s : SlotNum) : s.toNat < Config.nslots := s.isLt

/-- slot[s]: none is EMPTY (R39). -/
def State.slot (s : State) (k : SlotNum) : Option Engine := s.slots[k.toNat]'(slotNum_lt k)

/-- slot[s] <- a whole new record; no other slot changes (R39, R200). -/
def State.setSlot (s : State) (k : SlotNum) (g : Engine) : State :=
  { s with slots := s.slots.set k.toNat (some g) (slotNum_lt k) }

/-! Taking an error, and completing. -/

/-- raise E(w) (R304): the code, the sticky bit and the word, and nothing else. -/
def raise (e : ErrorCode) (w : Word32) (s : State) : State := { s with code := e, sticky := true, errcmd := w }

/-- A command that raises answers the next state: the block keeps running (R304). The recorded word is the word of
the command, which is the word the host wrote (log entry 17). -/
def raiseFor (e : ErrorCode) (i : Instr) (s : State) : Host.Outcome State Fault Refusal := .next (raise e (encode i) s)

/-- A command that completes writes CODE = OK and leaves STICKY and ERRCMD (R305). -/
def complete (s : State) : Host.Outcome State Fault Refusal := .next { s with code := .ok }

/-- The configured-slot check that every drawing command begins with (R231, R302): k is what the command does with
the engine of its slot. -/
def onEngine (i : Instr) (s : State) (k : Engine → Host.Outcome State Fault Refusal) : Host.Outcome State Fault Refusal :=
  match s.slot i.slot with
  | none => raiseFor .notConfigured i s
  | some g => k g

/-- A drawing command that completes with a result: the slot's engine has advanced and RES[0] is written (R33). -/
def completeWith (i : Instr) (g : Engine) (r : Word) (s : State) : Host.Outcome State Fault Refusal :=
  complete { s.setSlot i.slot g with res0 := r }

/-- What a successful CFG.* command leaves (R200, R201): the slot's record is replaced whole, and RES[0] is written
with the seed when the entropy input supplied it. -/
def configure (i : Instr) (g : Engine) (seed : Word) (s : State) : Host.Outcome State Fault Refusal :=
  complete { s.setSlot i.slot g with res0 := if i.flagE then seed else s.res0 }

/-! Conversion and reduction. -/

/-- ToUnitDouble (R234): the top 53 bits of a draw times 2^-53. Both factors are finite, so the NaN pattern given to
fmul is never returned. -/
def toUnitDouble (x : Word) : F64 := fmul 0x7FF8000000000000#64 (toF64 (x >>> 11).toNat) 0x3CA0000000000000#64

/-- RangeReduce (R236): one Draw64 reduced into lo..hi, both included, by exact integer arithmetic. -/
def rangeReduce (g : Engine) (lo hi : Int) : Int × Engine :=
  let d := draw64 g
  (lo + (d.1.toNat : Int) % (hi - lo + 1), d.2)

/-- u64 of an exact integer: its two's-complement pattern (R21). -/
def ofInt64 (v : Int) : Word := BitVec.ofInt 64 v

end Sys2Proof.Machine
end

