-- ==== Sys2Proof/Machine/Configure.lean ====
section
/-! DEFINITION. The configuration commands CFG.* (spec/41_configure.md). Each builds the whole new record of its
slot and replaces the old one only if no check raises (R200); the check of the second parameter comes before the
seed is taken (R210). -/

namespace Sys2Proof.Machine

/-- CFG.SM (R203): the slot's state is the seed itself. -/
def execCfgSm (slot : SlotNum) (e : Bool) (s : State) : Host.Outcome State Fault Refusal :=
  let d := takeSeed e s
  configure (.cfgSm slot e) (.sm d.1) d.1 d.2

/-- CFG.XS (R204): four words of the seed's expansion. -/
def execCfgXs (slot : SlotNum) (e : Bool) (s : State) : Host.Outcome State Fault Refusal :=
  let d := takeSeed e s
  configure (.cfgXs slot e) (.xs (xsSeed d.1)) d.1 d.2

/-- CFG.XSS (R205): an explicit state, which may not be all zero. -/
def execCfgXss (slot : SlotNum) (s : State) : Host.Outcome State Fault Refusal :=
  if s.arg[0] = 0 ∧ s.arg[1] = 0 ∧ s.arg[2] = 0 ∧ s.arg[3] = 0 then raiseFor .configurationError (.cfgXss slot) s
  else complete (s.setSlot slot (.xs ⟨s.arg[0], s.arg[1], s.arg[2], s.arg[3]⟩))

/-- CFG.MT (R206): the low 32 bits of the seed initialise the state (R155). -/
def execCfgMt (slot : SlotNum) (e : Bool) (s : State) : Host.Outcome State Fault Refusal :=
  let d := takeSeed e s
  configure (.cfgMt slot e) (.mt (mtInit (lo32 d.1))) d.1 d.2

/-- CFG.PCG (R207): an even increment is a configuration error. -/
def execCfgPcg (slot : SlotNum) (e d : Bool) (s : State) : Host.Outcome State Fault Refusal :=
  let inc := pcgIncrement d s
  if inc.getLsbD 0 = false then raiseFor .configurationError (.cfgPcg slot e d) s
  else
    let r := takeSeed e s
    configure (.cfgPcg slot e d) (.pcg (pcgInit r.1 inc)) r.1 r.2

/-- The checks of the CMWC cycle, on the u64 value (R208, D43): not below 16, a power of two, and not larger than the
block stores. -/
def cmwcCycleOk (cycle : Word) : Bool :=
  decide (Config.cmwcMinCycle ≤ cycle.toNat) && (cycle &&& (cycle - 1)) == 0 && decide (cycle.toNat ≤ Config.cmwcMaxCycle)

/-- CFG.CMWC (R208). -/
def execCfgCmwc (slot : SlotNum) (e d : Bool) (s : State) : Host.Outcome State Fault Refusal :=
  let cycle := cmwcCycle d s
  if cmwcCycleOk cycle = false then raiseFor .configurationError (.cfgCmwc slot e d) s
  else
    let r := takeSeed e s
    configure (.cfgCmwc slot e d) (.cmwc (cmwcInit r.1 cycle.toNat)) r.1 r.2

/-- CFG.CC (R209). What blk holds until the first draw is a free value (R186, log entry 7), so the command takes one. -/
def execCfgCc (slot : SlotNum) (e d : Bool) (s : State) : Host.Outcome State Fault Refusal :=
  let r := takeSeed e s
  configure (.cfgCc slot e d) (.cc (ccInit Config.chachaPad (Config.blkFree r.2.fresh) r.1 (ccStream d s))) r.1
    { r.2 with fresh := r.2.fresh + 1 }

end Sys2Proof.Machine
end

