-- ==== Sys2Proof/Machine/Contract.lean ====
section
/-! DEFINITION. The contract commands (spec/42_contract.md): word draws, conversion, range reduction and
serialization. Every check comes before the first draw (R231). -/

namespace Sys2Proof.Machine

/-- NEXT64 (R232). -/
def execNext64 (slot : SlotNum) (s : State) : Host.Outcome State Fault Refusal :=
  onEngine (.next64 slot) s fun g =>
    let d := draw64 g
    completeWith (.next64 slot) d.2 d.1 s

/-- NEXT32 (R233): the result is zero-extended. -/
def execNext32 (slot : SlotNum) (s : State) : Host.Outcome State Fault Refusal :=
  onEngine (.next32 slot) s fun g =>
    let d := draw32 g
    completeWith (.next32 slot) d.2 (zext64 d.1) s

/-- NEXTDBL (R235). -/
def execNextDbl (slot : SlotNum) (s : State) : Host.Outcome State Fault Refusal :=
  onEngine (.nextDbl slot) s fun g =>
    let d := draw64 g
    completeWith (.nextDbl slot) d.2 (toUnitDouble d.1) s

/-- NEXTINT (R237): signed bounds, both included. -/
def execNextInt (slot : SlotNum) (s : State) : Host.Outcome State Fault Refusal :=
  onEngine (.nextInt slot) s fun g =>
    if argInt s 1 < argInt s 0 then raiseFor .invalidArgument (.nextInt slot) s
    else
      let d := rangeReduce g (argInt s 0) (argInt s 1)
      completeWith (.nextInt slot) d.2 (ofInt64 d.1) s

/-- The loop of NEXTBYTES (R240): n more draws, the first of them stored at address a, with L bytes still to write.
Each draw writes its min(8, L) low bytes. -/
def fillBytes : Nat → Nat → Nat → Engine → Memory → Engine × Memory
  | 0, _, _, g, m => (g, m)
  | n + 1, a, len, g, m =>
    let d := draw64 g
    fillBytes n (a + min 8 len) (len - min 8 len) d.2 (memWrite m a (min 8 len) d.1)

/-- NEXTBYTES (R240): ceil(L / 8) draws; RES is not written. -/
def execNextBytes (slot : SlotNum) (s : State) : Host.Outcome State Fault Refusal :=
  onEngine (.nextBytes slot) s fun g =>
    if Config.bufSize < argNat s 0 + argNat s 1 then raiseFor .bufferRange (.nextBytes slot) s
    else
      let r := fillBytes ((argNat s 1 + 7) / 8) (argNat s 0) (argNat s 1) g s.buf
      complete { s.setSlot slot r.1 with buf := r.2 }

end Sys2Proof.Machine
end

