-- ==== Sys2Proof/Machine/Facade.lean ====
section
/-! DEFINITION. The facade commands (spec/43_facade.md): derived sampling and the in-place permutation. No rule here
depends on the engine. -/

namespace Sys2Proof.Machine

/-- NEXTPCT (R260): 1 + (x mod 100). -/
def execNextPct (slot : SlotNum) (s : State) : Host.Outcome State Fault Refusal :=
  onEngine (.nextPct slot) s fun g =>
    let d := rangeReduce g 1 100
    completeWith (.nextPct slot) d.2 (ofInt64 d.1) s

/-- GAMBLE (R262): true when the percent draw is at most the signed threshold; a draw is made in every case. -/
def execGamble (slot : SlotNum) (s : State) : Host.Outcome State Fault Refusal :=
  onEngine (.gamble slot) s fun g =>
    let d := rangeReduce g 1 100
    completeWith (.gamble slot) d.2 (if d.1 ≤ argInt s 0 then 1 else 0) s

/-- GAMBLED (R264): true when the unit double is less than the probability; a NaN gives 0. -/
def execGambleD (slot : SlotNum) (s : State) : Host.Outcome State Fault Refusal :=
  onEngine (.gambleD slot) s fun g =>
    let d := draw64 g
    completeWith (.gambleD slot) d.2 (if flt (toUnitDouble d.1) s.arg[0] then 1 else 0) s

/-- lo + (hi - lo) * d in that order of evaluation (R266). -/
def doubleInRange (nan lo hi d : F64) : F64 := fadd nan lo (fmul nan (fsub nan hi lo) d)

/-- NEXTDRANGE (R266): raises when max < min by the quiet comparison. A NaN result has a free pattern (93 I5), so
the command takes one free value. -/
def execNextDRange (slot : SlotNum) (s : State) : Host.Outcome State Fault Refusal :=
  onEngine (.nextDRange slot) s fun g =>
    if flt s.arg[1] s.arg[0] then raiseFor .invalidArgument (.nextDRange slot) s
    else
      let d := draw64 g
      completeWith (.nextDRange slot) d.2 (doubleInRange (freeNaN s.fresh) s.arg[0] s.arg[1] (toUnitDouble d.1))
        { s with fresh := s.fresh + 1 }

/-- NEXTBOOL (R268): 1 is true. -/
def execNextBool (slot : SlotNum) (s : State) : Host.Outcome State Fault Refusal :=
  onEngine (.nextBool slot) s fun g =>
    let d := rangeReduce g 0 1
    completeWith (.nextBool slot) d.2 (ofInt64 d.1) s

/-- NEXTCHAR (R270): a code of CHAR_LO..CHAR_HI. -/
def execNextChar (slot : SlotNum) (s : State) : Host.Outcome State Fault Refusal :=
  onEngine (.nextChar slot) s fun g =>
    let d := rangeReduce g (Config.charLo.toNat : Int) (Config.charHi.toNat : Int)
    completeWith (.nextChar slot) d.2 (ofInt64 d.1) s

/-- NEXTINDEX (R272): an index below the length, which may not be 0. -/
def execNextIndex (slot : SlotNum) (s : State) : Host.Outcome State Fault Refusal :=
  onEngine (.nextIndex slot) s fun g =>
    if s.arg[0] = 0 then raiseFor .invalidArgument (.nextIndex slot) s
    else
      let d := rangeReduce g 0 ((argNat s 0 : Int) - 1)
      completeWith (.nextIndex slot) d.2 (ofInt64 d.1) s

/-- Element k of the region at b (R275): the 8-byte little-endian value at b + 8k. -/
def readElement (m : Memory) (b k : Nat) : Word := BitVec.ofNat 64 (memRead m (b + 8 * k) 8)

/-- Elements i and j of the region at b exchanged (R275): both are read before either is written. -/
def swapElements (m : Memory) (b i j : Nat) : Memory :=
  memWrite (memWrite m (b + 8 * i) 8 (readElement m b j)) (b + 8 * j) 8 (readElement m b i)

/-- The loop of SHUFFLE (R275), from index i down to 1: element i is exchanged with a drawn element of 0..i. -/
def shuffleFrom (b : Nat) : Nat → Engine → Memory → Engine × Memory
  | 0, g, m => (g, m)
  | i + 1, g, m =>
    let d := rangeReduce g 0 ((i : Int) + 1)
    shuffleFrom b i d.2 (swapElements m b (i + 1) d.1.toNat)

/-- SHUFFLE (R275): Fisher-Yates from the last index down to 1; RES is not written. -/
def execShuffle (slot : SlotNum) (s : State) : Host.Outcome State Fault Refusal :=
  onEngine (.shuffle slot) s fun g =>
    if argNat s 0 % 8 ≠ 0 then raiseFor .misaligned (.shuffle slot) s
    else if Config.bufSize < argNat s 0 + 8 * argNat s 1 then raiseFor .bufferRange (.shuffle slot) s
    else
      let r := shuffleFrom (argNat s 0) (argNat s 1 - 1) g s.buf
      complete { s.setSlot slot r.1 with buf := r.2 }

/-- TWO_PI (R278). -/
def twoPi : F64 := 0x401921FB54442D18#64

/-- NEXTPOLAR (R278): the first draw gives the angle, the second the distance. A NaN distance has a free pattern
(93 I5), so the command takes one free value. -/
def execNextPolar (slot : SlotNum) (s : State) : Host.Outcome State Fault Refusal :=
  onEngine (.nextPolar slot) s fun g =>
    let d1 := draw64 g
    let d2 := draw64 d1.2
    let nan := freeNaN s.fresh
    completeWith (.nextPolar slot) d2.2 (fmul nan (toUnitDouble d1.1) twoPi)
      { s with res1 := fmul nan s.arg[0] (fsqrt nan (toUnitDouble d2.1)), fresh := s.fresh + 1 }

end Sys2Proof.Machine
end

