-- ==== Sys2Proof/Machine/Dispatch.lean ====
section
/-! DEFINITION. One arm per command: the meaning of a decoded command (spec/30_encoding.md R106). -/

namespace Sys2Proof.Machine

def exec (i : Instr) (s : State) : Host.Outcome State Fault Refusal :=
  match i with
  -- spec/41_configure.md
  | .cfgSm slot e => Sys2Proof.Machine.execCfgSm slot e s
  | .cfgXs slot e => Sys2Proof.Machine.execCfgXs slot e s
  | .cfgXss slot => Sys2Proof.Machine.execCfgXss slot s
  | .cfgMt slot e => Sys2Proof.Machine.execCfgMt slot e s
  | .cfgPcg slot e d => Sys2Proof.Machine.execCfgPcg slot e d s
  | .cfgCmwc slot e d => Sys2Proof.Machine.execCfgCmwc slot e d s
  | .cfgCc slot e d => Sys2Proof.Machine.execCfgCc slot e d s
  -- spec/42_contract.md
  | .next64 slot => Sys2Proof.Machine.execNext64 slot s
  | .next32 slot => Sys2Proof.Machine.execNext32 slot s
  | .nextDbl slot => Sys2Proof.Machine.execNextDbl slot s
  | .nextInt slot => Sys2Proof.Machine.execNextInt slot s
  | .nextBytes slot => Sys2Proof.Machine.execNextBytes slot s
  -- spec/43_facade.md
  | .nextPct slot => Sys2Proof.Machine.execNextPct slot s
  | .gamble slot => Sys2Proof.Machine.execGamble slot s
  | .gambleD slot => Sys2Proof.Machine.execGambleD slot s
  | .nextDRange slot => Sys2Proof.Machine.execNextDRange slot s
  | .nextBool slot => Sys2Proof.Machine.execNextBool slot s
  | .nextChar slot => Sys2Proof.Machine.execNextChar slot s
  | .nextIndex slot => Sys2Proof.Machine.execNextIndex slot s
  | .shuffle slot => Sys2Proof.Machine.execShuffle slot s
  | .nextPolar slot => Sys2Proof.Machine.execNextPolar slot s

end Sys2Proof.Machine
end

