-- ==== Sys2Proof/Machine/Port.lean ====
section
/-! DEFINITION. The host port (spec/20_memory.md R77, R78): the port map, running a command word, the effect of one
host operation, and reset (spec/70_reset_and_hazards.md R340). -/

namespace Sys2Proof.Machine

/-! The port map (R77). -/

/-- What an offset of the port reaches. -/
inductive Target where
  | cmd
  | status
  | errcmd
  | caps
  | arg (i : Fin 4)
  | res0
  | res1
  | slotInfo (k : Fin Config.nslots)
  | buf (a : Nat)
  /-- A reserved offset, or a register at an offset other than its first byte (R78). -/
  | reserved
  deriving DecidableEq, Repr

/-- The target of an offset. SLOTINFO[s] stands at 0x080 + 8s, BUF[a] at 0x1000 + a (R77). -/
def portTarget (offset : Nat) : Target :=
  if offset = 0x000 then .cmd
  else if offset = 0x008 then .status
  else if offset = 0x010 then .errcmd
  else if offset = 0x018 then .caps
  else if offset = 0x020 then .arg 0
  else if offset = 0x028 then .arg 1
  else if offset = 0x030 then .arg 2
  else if offset = 0x038 then .arg 3
  else if offset = 0x040 then .res0
  else if offset = 0x048 then .res1
  else if h : 0x080 ≤ offset ∧ offset % 8 = 0 ∧ (offset - 0x080) / 8 < Config.nslots then
    .slotInfo ⟨(offset - 0x080) / 8, h.2.2⟩
  else if 0x1000 ≤ offset ∧ offset < 0x1000 + Config.bufSize then .buf (offset - 0x1000)
  else .reserved

/-- Where an offset stands in a system's address space: the base is the platform's (R79). -/
def portAddress (offset : Fin Config.portSpan) : Nat := Config.portBase + offset.val

/-! The operations R77 names. -/

/-- The offset of ARG[i]. -/
def argOffset (i : Fin 4) : Fin Config.portSpan := ⟨0x020 + 8 * i.val, by have := i.isLt; simp [Config.portSpan]; omega⟩
/-- The offset of SLOTINFO[k]. -/
def slotInfoOffset (k : Fin Config.nslots) : Fin Config.portSpan :=
  ⟨0x080 + 8 * k.val, by have := k.isLt; simp [Config.portSpan, Config.nslots] at *; omega⟩
/-- The offset of BUF[a]. -/
def bufOffset (a : Fin Config.bufSize) : Fin Config.portSpan :=
  ⟨0x1000 + a.val, by have := a.isLt; simp [Config.portSpan, Config.bufSize] at *; omega⟩

/-- WriteReg(ARG[i], v). -/
def writeArg (i : Fin 4) (v : Word) : PortOp := .write (argOffset i) v
/-- WriteCmd(w). -/
def writeCmd (w : Word32) : PortOp := .write 0x000 (zext64 w)
/-- WriteBuf(a, b). -/
def writeBuf (a : Fin Config.bufSize) (b : Byte) : PortOp := .write (bufOffset a) (b.setWidth 64)
/-- ReadBuf(a). -/
def readBuf (a : Fin Config.bufSize) : PortOp := .read (bufOffset a)
/-- ReadReg(STATUS). -/
def readStatus : PortOp := .read 0x008
/-- ReadReg(ERRCMD). -/
def readErrcmd : PortOp := .read 0x010
/-- ReadReg(CAPS). -/
def readCaps : PortOp := .read 0x018
/-- ReadReg(ARG[i]). -/
def readArg (i : Fin 4) : PortOp := .read (argOffset i)
/-- ReadReg(RES[0]). -/
def readRes0 : PortOp := .read 0x040
/-- ReadReg(RES[1]). -/
def readRes1 : PortOp := .read 0x048
/-- ReadReg(SLOTINFO[k]). -/
def readSlotInfo (k : Fin Config.nslots) : PortOp := .read (slotInfoOffset k)

/-! Running a command word (R34, R110). -/

/-- A word written to CMD: a command runs, any other word raises IllegalCommand with no other effect (R108, R301). -/
def runWord (w : Word32) (s : State) : Host.Outcome State Fault Refusal :=
  match decode w with
  | .ok i => exec i s
  | .error _ => .next (raise .illegalCommand w s)

/-! One operation of the host. -/

/-- What a read of a target returns (R34 to R38, R76, R77, R78): CMD and reserved offsets read 0. -/
def readTarget (s : State) : Target → Word
  | .cmd => 0
  | .status => statusReg s
  | .errcmd => errcmdReg s
  | .caps => capsReg
  | .arg i => s.arg[i]
  | .res0 => s.res0
  | .res1 => s.res1
  | .slotInfo k => slotInfoReg s k
  | .buf a => (s.buf.read a).setWidth 64
  | .reserved => 0

/-- The effect of a write to a target (R32 to R38, R48, R77, R78): CMD runs the low 32 bits, BUF takes the low byte,
read-only registers and reserved offsets ignore the write. -/
def writeTarget (t : Target) (v : Word) (s : State) : Host.Outcome State Fault Refusal :=
  match t with
  | .cmd => runWord (lo32 v) s
  | .arg i => .next { s with arg := s.arg.set i v }
  | .buf a => .next { s with buf := s.buf.write a (v.extractLsb' 0 8) }
  | .status => .next s
  | .errcmd => .next s
  | .caps => .next s
  | .res0 => .next s
  | .res1 => .next s
  | .slotInfo _ => .next s
  | .reserved => .next s

/-- Reset (R340): every piece of the block's state to its reset value; each byte of BUF is unspecified again, so BUF
starts a new epoch of free bytes. The host's remaining operations and what it has read are not the block's and
stay (log entry 13). -/
def applyReset (s : State) : State :=
  { State.reset with
    buf := ⟨s.fresh + 1, []⟩, hostOps := s.hostOps, readData := s.readData, fresh := s.fresh + 1 }

/-- The effect of one operation of the host (R81: complete before the next one takes effect). -/
def perform (op : PortOp) (s : State) : Host.Outcome State Fault Refusal :=
  match op with
  | .read offset => .next { s with readData := readTarget s (portTarget offset.val) }
  | .write offset v => writeTarget (portTarget offset.val) v s
  | .reset => .next (applyReset s)

/-- One step of the block: the host's next operation, or nothing while the host does nothing (R342). -/
def stepHost (s : State) : Host.Outcome State Fault Refusal :=
  match s.hostOps with
  | [] => .next s
  | op :: rest => perform op { s with hostOps := rest }

/-- s with a command word as the host's next operation. -/
def placeCommand (s : State) (w : Word32) : State := { s with hostOps := writeCmd w :: s.hostOps }

end Sys2Proof.Machine
end

