-- ==== Sys2Proof/Machine/Step.lean ====
section
/-! DEFINITION. The step of the block: one port operation of the host (spec/20_memory.md R81). The block fetches
nothing (spec/10_state.md R31): a command is what the host writes to CMD. -/

namespace Sys2Proof.Machine

/-- One step (Machine/Port.lean). -/
def step (s : State) : Host.Outcome State Fault Refusal := stepHost s

/-- s with a table word as the host's next write to CMD, so that the next step runs it (log entry 1): the word is the
low nbits bits of w, the bits above them 0. -/
def State.withFetchWord (s : State) (nbits w : Nat) : State := placeCommand s (BitVec.ofNat 32 (w % 2 ^ nbits))

end Sys2Proof.Machine
end

