-- ==== Sys2Proof/Machine/Sequences.lean ====
section
/-! DEFINITION. The pseudo-instructions (spec/30_encoding.md R114) and the registry names (R115) as the host sequences
of port operations they stand for. They add nothing to the block: they are what a host may put into State.hostOps.
What the host does outside the block (cosine and sine, concatenation, taking the element, the table of names) is
out of scope (spec/00_scope.md R6). -/

namespace Sys2Proof.Machine

/-- WriteCmd of an encoded command (R113, CMD). -/
def issue (i : Instr) : PortOp := writeCmd (encode i)

/-! The operations of the document that are one or more commands (R114). -/

/-- nextFloat(min, max): identical to NEXTDRANGE. -/
def nextFloat (slot : SlotNum) (lo hi : F64) : List PortOp := [writeArg 0 lo, writeArg 1 hi, issue (.nextDRange slot)]

/-- nextString(length): NEXTCHAR and a read of RES[0], length times, in draw order. -/
def nextString (slot : SlotNum) (length : Nat) : List PortOp :=
  (List.replicate length [issue (.nextChar slot), readRes0]).flatten

/-- nextItem(sequence of n elements): the index drawn and read. -/
def nextItem (slot : SlotNum) (n : Word) : List PortOp := [writeArg 0 n, issue (.nextIndex slot), readRes0]

/-- nextWithinCircle(radius): the polar pair drawn and read; the conversion is the host's (93 I14). -/
def nextWithinCircle (slot : SlotNum) (radius : F64) : List PortOp :=
  [writeArg 0 radius, issue (.nextPolar slot), readRes0, readRes1]

/-- The command that configures an engine; e and d are dropped where it does not admit them (R106). -/
def configureInstr (k : EngineKind) (slot : SlotNum) (e d : Bool) : Instr :=
  match k with
  | .sm => .cfgSm slot e
  | .xs => .cfgXs slot e
  | .mt => .cfgMt slot e
  | .pcg => .cfgPcg slot e d
  | .cmwc => .cfgCmwc slot e d
  | .cc => .cfgCc slot e d

/-- create(engine, seed?) with an optional second parameter: what is not given is left to E and to D (R114). -/
def create (k : EngineKind) (slot : SlotNum) (seed second : Option Word) : List PortOp :=
  (match seed with
    | none => []
    | some v => [writeArg 0 v]) ++
  (match second with
    | none => []
    | some v => [writeArg 1 v]) ++
  [issue (configureInstr k slot seed.isNone second.isNone)]

/-! Registry names (R115). -/

/-- The names the document lists (R115). -/
inductive RegistryName where
  | default
  | splitmix
  | xoshiro
  | mersenneTwister
  | pcg
  | cmwc
  | cmwcSmall
  | chacha
  | jsf
  | rcb
  | rcbFast
  | melg
  deriving DecidableEq, Repr

/-- The engine of a name and its second parameter, none for the default that D asks for; the last four names have no
command in this version (R115, R6). -/
def registryEngine : RegistryName → Option (EngineKind × Option Word)
  | .default => some (Config.defaultEngine, none)
  | .splitmix => some (.sm, none)
  | .xoshiro => some (.xs, none)
  | .mersenneTwister => some (.mt, none)
  | .pcg => some (.pcg, none)
  | .cmwc => some (.cmwc, none)
  | .cmwcSmall => some (.cmwc, some Config.cmwcSmallCycle)
  | .chacha => some (.cc, none)
  | .jsf => none
  | .rcb => none
  | .rcbFast => none
  | .melg => none

/-- create(name, seed?): the operations that configure a slot for a registry name, where the name has a command. -/
def createNamed (name : RegistryName) (slot : SlotNum) (seed : Option Word) : Option (List PortOp) :=
  (registryEngine name).map fun k => create k.1 slot seed k.2

end Sys2Proof.Machine
end

