-- ==== Sys2Proof/Safety.lean ====
section
/-! DEFINITION. What claims are stated in: the invariants that the spec gives the engine state vectors
(spec/10_state.md R41 to R45), the invariant of the whole block, and the programs a claim may be about
(spec/93_implementation_defined.md I1, I2). -/

namespace Sys2Proof
open Sys2Proof.Machine

/-- The table sizes that CFG.CMWC accepts: powers of two from 16 to 65536 (R44). -/
def CmwcSize (n : Nat) : Prop := ∃ e, 4 ≤ e ∧ e ≤ 16 ∧ n = 2 ^ e

/-- What the rules give a configured engine: xs not all zero (R41), pinc odd (R43), a lag table of a legal size with
its index in range and its carry below the bound that seeding (R168) and every draw (R167) keep it under (R44),
the constant and pad words of the ChaCha input (R182). mti ≤ 624 (R42) and pos ≤ 16 (R45) hold by type. -/
def EngineOk : Engine → Prop
  | .sm _ => True
  | .xs x => ¬(x.s0 = 0 ∧ x.s1 = 0 ∧ x.s2 = 0 ∧ x.s3 = 0)
  | .mt _ => True
  | .pcg p => p.pinc.getLsbD 0 = true
  | .cmwc k => CmwcSize k.n ∧ k.q.length = k.n ∧ k.ci < k.n ∧ k.c.toNat < Config.cmwcCarryBound.toNat
  | .cc k =>
    k.inp[0] = 0x61707865 ∧ k.inp[1] = 0x3320646E ∧ k.inp[2] = 0x79622D32 ∧ k.inp[3] = 0x6B206574 ∧
      ∀ j : Fin 6, k.inp[6 + j.val] = Config.chachaPad j

/-- The invariant of the block: every configured engine is as the rules say, BUF is in canonical form, and while
STICKY is 0 no error has been recorded (R35, R36, R304). -/
def Inv (s : State) : Prop :=
  (∀ k g, s.slot k = some g → EngineOk g) ∧ s.buf.wf = true ∧ (s.sticky = false → s.code = .ok ∧ s.errcmd = 0)

/-- Why a host operation may not stand in a program that a claim is about: it writes to CMD a word that is no command
of this version (93 I1, I2). The machine itself reports IllegalCommand. -/
def opProblem : PortOp → Option DecodeError
  | .read _ => none
  | .reset => none
  | .write offset v =>
    if portTarget offset.val = .cmd then
      match decode (lo32 v) with
      | .ok _ => none
      | .error e => some e
    else none

/-- The first such problem of a program, by name. -/
def programProblem (ops : List PortOp) : Option DecodeError := ops.findSome? opProblem

/-! The words that statements are made of, written from the rules and not from the meanings. -/

/-- The fields of a command's word (R100), which encode lays out: OP, SLOT, E and D. -/
def FieldsAre (i : Instr) (op : BitVec 8) (slot : SlotNum) (e d : Bool) : Prop :=
  i.op = op ∧ i.slot = slot ∧ i.flagE = e ∧ i.flagD = d

/-- The state a raising command leaves (R304): the code, the sticky bit and the word, and nothing else. -/
def errorState (e : ErrorCode) (i : Instr) (s : State) : State := { s with code := e, sticky := true, errcmd := encode i }

/-- The seed of a CFG.* command (R201). -/
def seedOf (e : Bool) (s : State) : Word := if e then Config.entropy s.fresh else s.arg[0]

/-- What a CFG.* command that completes leaves (R200, R201): the slot's record, RES[0] with E, CODE, and the number of
free values taken, of which `more` are not the entropy draw. -/
def configuredState (slot : SlotNum) (g : Engine) (e : Bool) (more : Nat) (s : State) : State :=
  { s.setSlot slot g with
    res0 := if e then seedOf e s else s.res0, code := .ok, fresh := s.fresh + (if e then 1 else 0) + more }

/-- A slot's record replaced by any record, or by EMPTY. -/
def withSlot (s : State) (k : SlotNum) (o : Option Engine) : State :=
  { s with slots := s.slots.set k.toNat o (slotNum_lt k) }

/-- The OPs of the opcode map (R106). -/
def definedOps : List (BitVec 8) :=
  [0x01, 0x02, 0x03, 0x04, 0x05, 0x06, 0x07, 0x10, 0x11, 0x12, 0x13, 0x14, 0x20, 0x21, 0x22, 0x23, 0x24, 0x25, 0x26,
   0x27, 0x28]
/-- The OPs that admit E (R102). -/
def opsWithE : List (BitVec 8) := [0x01, 0x02, 0x04, 0x05, 0x06, 0x07]
/-- The OPs that admit D (R103). -/
def opsWithD : List (BitVec 8) := [0x05, 0x06, 0x07]

/-- The checks of R301: the word is raised as IllegalCommand. -/
def IllegalWord (w : Word32) : Prop :=
  w.extractLsb' 14 18 ≠ 0 ∨ w.extractLsb' 0 8 ∉ definedOps ∨
    (w.getLsbD 12 = true ∧ w.extractLsb' 0 8 ∉ opsWithE) ∨ (w.getLsbD 13 = true ∧ w.extractLsb' 0 8 ∉ opsWithD) ∨
    16 ≤ (w.extractLsb' 8 4).toNat

/-- The commands that write RES[0] when they complete (R352): with E, OP 0x10 to 0x13, and 0x20 to 0x28 but SHUFFLE. -/
def WritesRes0 (i : Instr) : Prop :=
  i.flagE = true ∨ (0x10 ≤ i.op.toNat ∧ i.op.toNat ≤ 0x13) ∨ (0x20 ≤ i.op.toNat ∧ i.op.toNat ≠ 0x27)

/-- The error codes that a command can report, OK among them (R300, R303). -/
def reportable : Instr → List ErrorCode
  | .cfgSm _ _ => [.ok]
  | .cfgXs _ _ => [.ok]
  | .cfgXss _ => [.ok, .configurationError]
  | .cfgMt _ _ => [.ok]
  | .cfgPcg _ _ _ => [.ok, .configurationError]
  | .cfgCmwc _ _ _ => [.ok, .configurationError]
  | .cfgCc _ _ _ => [.ok]
  | .next64 _ => [.ok, .notConfigured]
  | .next32 _ => [.ok, .notConfigured]
  | .nextDbl _ => [.ok, .notConfigured]
  | .nextInt _ => [.ok, .notConfigured, .invalidArgument]
  | .nextBytes _ => [.ok, .notConfigured, .bufferRange]
  | .nextPct _ => [.ok, .notConfigured]
  | .gamble _ => [.ok, .notConfigured]
  | .gambleD _ => [.ok, .notConfigured]
  | .nextDRange _ => [.ok, .notConfigured, .invalidArgument]
  | .nextBool _ => [.ok, .notConfigured]
  | .nextChar _ => [.ok, .notConfigured]
  | .nextIndex _ => [.ok, .notConfigured, .invalidArgument]
  | .shuffle _ => [.ok, .notConfigured, .misaligned, .bufferRange]
  | .nextPolar _ => [.ok, .notConfigured]

/-- The engine after n 64-bit draws. -/
def drawAfter (g : Engine) : Nat → Engine
  | 0 => g
  | n + 1 => (draw64 (drawAfter g n)).2

/-- The 64-bit draw number n of an engine, counted from 0. -/
def drawNumber (g : Engine) (n : Nat) : Word := (draw64 (drawAfter g n)).1

/-- Output number k, counted from 1, of SplitMix64 from the state seed (R133, R135). -/
def splitMixOutput (seed : Word) (k : Nat) : Word := smMix (seed + BitVec.ofNat 64 k * 0x9E3779B97F4A7C15#64)

/-- Elements i and j of a sequence exchanged. -/
def exchanged (f : Nat → Word) (i j : Nat) : Nat → Word := fun k => if k = i then f j else if k = j then f i else f k

/-- The document's Fisher-Yates (R275) on a sequence: from index i down to 1, element i is exchanged with element
x mod (i + 1), x being the next 64-bit draw. -/
def fisherYates : Nat → Engine → (Nat → Word) → Nat → Word
  | 0, _, f => f
  | i + 1, g, f => fisherYates i (draw64 g).2 (exchanged f (i + 1) ((draw64 g).1.toNat % (i + 2)))

/-- r is the finite binary64 nearest to num / den units of 2^-1074, and between two that are equally near the one
with an even fraction (R23). -/
def NearestEven (num : Int) (den : Nat) (r : F64) : Prop :=
  ∀ c : F64, c.isFinite = true →
    |r.units * den - num| ≤ |c.units * den - num| ∧
      (|r.units * den - num| = |c.units * den - num| → c.units ≠ r.units → r.fraction % 2 = 0)

/-- The patterns of the two infinities. -/
def plusInfinity : F64 := 0x7FF0000000000000
def minusInfinity : F64 := 0xFFF0000000000000

/-- r is num / den units of 2^-1074 rounded as IEEE 754 rounds to nearest, ties to even (R23): an infinity of the value's
sign when the value is at least as far out as the midpoint of the greatest finite binary64, (2^53 - 1) * 2^2045
units, and 2^2098 units, and else the nearest finite one. -/
def RoundsTo (num : Int) (den : Nat) (r : F64) : Prop :=
  if (2 ^ 54 - 1) * 2 ^ 2044 * (den : Int) ≤ |num| then r = if num < 0 then minusInfinity else plusInfinity
  else r.isFinite = true ∧ NearestEven num den r

/-- r is the finite binary64, not negative, nearest to the square root of n, in units of 2^-1074, ties to even (R23).
The root lies on r's side of the midpoint of r and c when n lies on that side of the midpoint's square. -/
def NearestRoot (n : Nat) (r : F64) : Prop :=
  r.isFinite = true ∧ 0 ≤ r.units ∧ ∀ c : F64, c.isFinite = true → 0 ≤ c.units →
    (r.units < c.units → 4 * (n : Int) ≤ (r.units + c.units) ^ 2) ∧
      (c.units < r.units → (r.units + c.units) ^ 2 ≤ 4 * (n : Int)) ∧
      (c.units ≠ r.units → (r.units + c.units) ^ 2 = 4 * (n : Int) → r.fraction % 2 = 0)

end Sys2Proof
end

