-- ==== Sys2Proof/Certificates/Slice0/Obligations.lean ====
section
/-! DEFINITION. The statements for the provers. Each docstring names the rules of spec/ it formalises; a premise on
BUF's canonical form rules out only states that no run reaches (InvariantKeptByEveryStep). -/

open Sys2Proof Sys2Proof.Machine

/-! Encoding (spec/30_encoding.md). -/

/-- R106, R110: decoding the word of a command gives the command back, with SLOT and flags at every value. -/
def Obligations.DecodeOfEncodeIsTheCommand : Prop :=
  ∀ i : Instr, i.WellFormed → decode (encode i) = .ok i

/-- R106, R110: a word that decodes is the word of its command, so no bit of it is dropped, and the word that
ERRCMD records for a raising command is the one the host wrote. -/
def Obligations.EncodeOfDecodeIsTheWord : Prop :=
  ∀ (w : Word32) (i : Instr), decode w = .ok i → encode i = w ∧ i.WellFormed

/-- R107: a word is a command exactly when a row of the table selects it by mask and match, the row is the
command's, its mask follows from the flags its OP admits, and no word selects two rows. -/
def Obligations.DecodeAcceptsTheTableRows : Prop :=
  (∀ (w : Word32) (i : Instr), decode w = .ok i →
    ∃ r ∈ opcodeRows, w &&& r.mask = r.pattern ∧ r.mnemonic = i.mnemonic ∧ r.pattern = i.op.setWidth 32) ∧
  (∀ (w : Word32) (r : OpcodeRow), r ∈ opcodeRows → w &&& r.mask = r.pattern →
    ∃ i, decode w = .ok i ∧ i.mnemonic = r.mnemonic) ∧
  (∀ (w : Word32) (r r' : OpcodeRow), r ∈ opcodeRows → r' ∈ opcodeRows → w &&& r.mask = r.pattern →
    w &&& r'.mask = r'.pattern → r = r') ∧
  (∀ r ∈ opcodeRows, r.mask = if r.pattern.extractLsb' 0 8 ∈ opsWithD then 0xFFFFC0FF else if r.pattern.extractLsb' 0 8 ∈ opsWithE then
    0xFFFFE0FF else 0xFFFFF0FF)

/-- R110: the first failing check decides, in the order RSV, OP, E, D, SLOT; a word that passes them all decodes to
the command of its fields. -/
def Obligations.DecodeChecksInOrder : Prop :=
  ∀ w : Word32,
    if w.extractLsb' 14 18 ≠ 0 then decode w = .error .reservedBits
    else if w.extractLsb' 0 8 ∉ definedOps then decode w = .error .reservedOp
    else if w.getLsbD 12 = true ∧ w.extractLsb' 0 8 ∉ opsWithE then decode w = .error .flagENotAdmitted
    else if w.getLsbD 13 = true ∧ w.extractLsb' 0 8 ∉ opsWithD then decode w = .error .flagDNotAdmitted
    else if 16 ≤ (w.extractLsb' 8 4).toNat then decode w = .error .slotOutOfRange
    else ∃ i, decode w = .ok i ∧ i.op = w.extractLsb' 0 8 ∧ i.slot = w.extractLsb' 8 4 ∧ i.flagE = w.getLsbD 12 ∧
      i.flagD = w.getLsbD 13

/-- R112 and the vectors of spec/95_test_vectors.md section 6: words written out from the encoding. -/
def Obligations.SpecWordsDecode : Prop :=
  decode 0x00000010 = .ok (.next64 0) ∧ decode 0x00002305 = .ok (.cfgPcg 3 false true) ∧
  decode 0x00003F06 = .ok (.cfgCmwc 15 true true) ∧ decode 0x00000213 = .ok (.nextInt 2) ∧
  decode 0x00000428 = .ok (.nextPolar 4) ∧ decode 0x00001701 = .ok (.cfgSm 7 true) ∧
  decode 0x00004010 = .error .reservedBits ∧ decode 0x00000000 = .error .reservedOp ∧
  decode 0x00001010 = .error .flagENotAdmitted ∧ decode 0x00002001 = .error .flagDNotAdmitted

/-! The step and the port (spec/20_memory.md, spec/10_state.md). -/

/-- R34, R77, R81: when the host's next operation writes to CMD, the step runs the low 32 bits of the value: a word that
decodes is that command's meaning, on the state with the operation taken off the host's list (the list is the
model's, log entry 1). -/
def Obligations.StepRunsDecodedCommand : Prop :=
  ∀ (s : State) (v : Word) (rest : List PortOp), s.hostOps = .write 0x000 v :: rest →
    step s = runWord (lo32 v) { s with hostOps := rest } ∧
    ∀ i : Instr, decode (lo32 v) = .ok i → step s = exec i { s with hostOps := rest }

/-- R301: a word with RSV set, with an OP outside the map, with a flag its OP does not admit, or with SLOT past the
slots raises IllegalCommand: the code, the sticky bit and the word are recorded and nothing else changes. -/
def Obligations.IllegalWordRaisesIllegalCommand : Prop :=
  ∀ (s : State) (w : Word32), IllegalWord w →
    runWord w s = .next { s with code := .illegalCommand, sticky := true, errcmd := w }

/-- R32 to R38, R39, R48, R76, R77, R300: a host read returns the register's or the byte's value and changes nothing of
the block. The error codes are 0 to 6, the engine codes 0 to 6, CYCLE_LOG2 is log2 of the CMWC table size (a power of
two for every configured slot, R44), CMD reads 0. The list of operations and the value kept of a read are the model's
(log entries 1, 2). -/
def Obligations.PortReadsReturnTheRegisters : Prop :=
  ∀ (s : State) (rest : List PortOp),
    let got := fun v : Word => (Host.Outcome.next { s with hostOps := rest, readData := v } :
      Host.Outcome State Fault Refusal)
    (s.hostOps = .read 0x000 :: rest → step s = got 0) ∧
    (s.hostOps = .read 0x008 :: rest →
      let sticky : Word := if s.sticky then 0x100 else 0
      (s.code = .ok → step s = got (sticky ||| 0)) ∧
      (s.code = .illegalCommand → step s = got (sticky ||| 1)) ∧
      (s.code = .notConfigured → step s = got (sticky ||| 2)) ∧
      (s.code = .configurationError → step s = got (sticky ||| 3)) ∧
      (s.code = .invalidArgument → step s = got (sticky ||| 4)) ∧
      (s.code = .bufferRange → step s = got (sticky ||| 5)) ∧
      (s.code = .misaligned → step s = got (sticky ||| 6))) ∧
    (s.hostOps = .read 0x010 :: rest → step s = got (s.errcmd.setWidth 64)) ∧
    (s.hostOps = .read 0x018 :: rest → step s = got 0x0000000001100C10) ∧
    (∀ i, s.hostOps = readArg i :: rest → step s = got s.arg[i]) ∧
    (s.hostOps = .read 0x040 :: rest → step s = got s.res0) ∧
    (s.hostOps = .read 0x048 :: rest → step s = got s.res1) ∧
    (∀ k, s.hostOps = readSlotInfo k :: rest →
      (s.slots[k] = none → step s = got 0) ∧
      (∀ t, s.slots[k] = some (.sm t) → step s = got 1) ∧
      (∀ x, s.slots[k] = some (.xs x) → step s = got 2) ∧
      (∀ m, s.slots[k] = some (.mt m) → step s = got 3) ∧
      (∀ p, s.slots[k] = some (.pcg p) → step s = got 4) ∧
      (∀ q e, s.slots[k] = some (.cmwc q) → q.n = 2 ^ e → e < 32 →
        step s = got (5 ||| (BitVec.ofNat 64 e <<< 8))) ∧
      (∀ c, s.slots[k] = some (.cc c) → step s = got 6)) ∧
    (∀ a, s.hostOps = readBuf a :: rest → step s = got ((s.buf.read a.val).setWidth 64))

/-- R78: a reserved offset, or a register at an offset other than its first byte, reads 0 and ignores writes, and a
write to a read-only register is ignored; STATUS does not change. The list of operations and the value kept of a
read are the model's (log entries 1, 2). -/
def Obligations.ReservedAccessesDoNothing : Prop :=
  ∀ (s : State) (rest : List PortOp) (off : Fin Config.portSpan) (v : Word),
    let reg := off.val % 8 = 0 ∧ (off.val ≤ 0x048 ∨ (0x080 ≤ off.val ∧ off.val < 0x100))
    let writable := off.val % 8 = 0 ∧ (off.val = 0x000 ∨ (0x020 ≤ off.val ∧ off.val ≤ 0x038))
    let inBuf := 0x1000 ≤ off.val ∧ off.val < 0x1000 + Config.bufSize
    (¬reg → ¬inBuf → s.hostOps = .read off :: rest → step s = .next { s with hostOps := rest, readData := 0 }) ∧
    (¬writable → ¬inBuf → s.hostOps = .write off v :: rest → step s = .next { s with hostOps := rest })

/-- R32, R48, R76: a host write to ARG[i] only stores the value, and a host write to BUF[a] only stores the byte
(the list of operations is the model's, log entry 1). -/
def Obligations.HostWritesStoreTheValue : Prop :=
  ∀ (s : State) (rest : List PortOp), s.buf.wf = true →
    (∀ i v, s.hostOps = writeArg i v :: rest → step s = .next { s with hostOps := rest, arg := s.arg.set i v }) ∧
    (∀ a b, s.hostOps = writeBuf a b :: rest → ∃ m, step s = .next { s with hostOps := rest, buf := m } ∧
      m.wf = true ∧ ∀ x, m.read x = if x = a.val then b else s.buf.read x)

/-! Reset (spec/70_reset_and_hazards.md). -/

/-- R340, R50: reset sets every register to 0 and every slot to EMPTY and leaves BUF with free bytes. That the host's
remaining operations and the last value read stay is the model's choice (log entry 13). -/
def Obligations.ResetStepLeavesTheResetValues : Prop :=
  ∀ (s : State) (rest : List PortOp), s.hostOps = .reset :: rest → ∃ t, step s = .next t ∧
    t.arg = #v[0, 0, 0, 0] ∧ t.res0 = 0 ∧ t.res1 = 0 ∧ statusReg t = 0 ∧ errcmdReg t = 0 ∧
    (∀ k, t.slot k = none) ∧ (∀ k, slotInfoReg t k = 0) ∧
    (∀ a, t.buf.read a = Config.bufFree t.buf.epoch a) ∧ t.hostOps = rest ∧ t.readData = s.readData

/-- R50: the state right after reset. -/
def Obligations.ResetValues : Prop :=
  State.reset.arg = #v[0, 0, 0, 0] ∧ State.reset.res0 = 0 ∧ State.reset.res1 = 0 ∧ statusReg State.reset = 0 ∧
  errcmdReg State.reset = 0 ∧ capsReg = 0x0000000001100C10 ∧ (∀ k, State.reset.slot k = none) ∧
  (∀ k, slotInfoReg State.reset k = 0) ∧ State.reset.buf.cells = []

/-- R342: with no operation of the host to perform the block does nothing (that a step is then possible and leaves
the state as it is, is the model's choice: log entry 1). -/
def Obligations.BlockWaitsForTheHost : Prop :=
  ∀ s : State, s.hostOps = [] → step s = .next s

/-! Errors and completion (spec/60_exceptions.md). -/

/-- R302: every command with OP 0x10 to 0x28 raises NotConfigured when its slot is EMPTY, before any other check, and
no CFG.* command ever does. -/
def Obligations.EmptySlotRaisesNotConfigured : Prop :=
  ∀ (i : Instr) (s : State),
    (0x10 ≤ i.op.toNat → s.slot i.slot = none → exec i s = .next (errorState .notConfigured i s)) ∧
    (i.op.toNat < 0x10 → ∀ t, exec i s = .next t → t.code ≠ .notConfigured)

/-- R304: when a word written to CMD raises, the state after it is the state before it but for CODE, STICKY and
ERRCMD, which record the code, 1 and the word. -/
def Obligations.RaisingChangesOnlyStatus : Prop :=
  ∀ (w : Word32) (s t : State), runWord w s = .next t → t.code ≠ .ok →
    t = { s with code := t.code, sticky := true, errcmd := w }

/-- R305: a command that does not raise, so that CODE is OK after it (a raising one leaves another code:
RaisingChangesOnlyStatus), leaves STICKY and ERRCMD. -/
def Obligations.SuccessKeepsStickyAndErrcmd : Prop :=
  ∀ (w : Word32) (s t : State), runWord w s = .next t → t.code = .ok → t.sticky = s.sticky ∧ t.errcmd = s.errcmd

/-- R300, R303: a command reports only the codes the rules give it; CFG.SM, CFG.XS, CFG.MT and CFG.CC report none but
OK, and an argument error is reported only by the commands of R303. -/
def Obligations.CommandsReportOnlyTheirCodes : Prop :=
  ∀ (i : Instr) (s t : State), exec i s = .next t → t.code ∈ reportable i

/-- R304, R363: every command answers a next state, and so does every step: that nothing stops the block is log entry 10
(DEDUCED from R304 and R363, which speak of commands), and that a step with no operation of the host is possible and
leaves the state as it is, is the model's choice (log entry 1). -/
def Obligations.EveryStepAnswersANextState : Prop :=
  (∀ (i : Instr) (s : State), ∃ t, exec i s = .next t) ∧ ∀ s : State, ∃ t, step s = .next t

/-- The frame of all twenty-one commands (R32, R33, R39, R200, R352): ARG is never written; no slot changes but the
one SLOT names; RES[1] changes only by NEXTPOLAR and RES[0] only by the commands of R352; every byte of BUF stays
for every command but NEXTBYTES and SHUFFLE, whose stores NextBytesResult and ShuffleResult describe. -/
def Obligations.CommandFrame : Prop :=
  ∀ (i : Instr) (s t : State), exec i s = .next t →
    t.arg = s.arg ∧ t.hostOps = s.hostOps ∧ t.readData = s.readData ∧ t.buf.epoch = s.buf.epoch ∧
    (∀ k, k ≠ i.slot → t.slot k = s.slot k) ∧
    ((∀ k, i ≠ .nextPolar k) → t.res1 = s.res1) ∧ (¬WritesRes0 i → t.res0 = s.res0) ∧
    ((∀ k, i ≠ .nextBytes k) → (∀ k, i ≠ .shuffle k) → ∀ a, t.buf.read a = s.buf.read a)

/-- R39: slots are independent: another slot holding anything else changes nothing of what a command does, and the
command leaves that slot's record as it is. -/
def Obligations.SlotsAreIndependent : Prop :=
  ∀ (i : Instr) (s t : State) (k : SlotNum) (o : Option Engine), k ≠ i.slot → exec i s = .next t →
    exec i (withSlot s k o) = .next (withSlot t k o)

/-- R242: the contract commands are functions of the slot state and ARG alone: two slots in the same state, of two
states with the same ARG, give the same code, the same result and the same slot state, and NEXTBYTES the same bytes. -/
def Obligations.SameSlotStateSameResults : Prop :=
  ∀ (j k : SlotNum) (s u : State), s.arg = u.arg → s.slot j = u.slot k →
    (∀ f ∈ [Instr.next64, Instr.next32, Instr.nextDbl, Instr.nextInt], ∃ t v, exec (f j) s = .next t ∧
      exec (f k) u = .next v ∧ t.code = v.code ∧ t.slot j = v.slot k ∧ (t.code = .ok → t.res0 = v.res0)) ∧
    (s.buf.wf = true → u.buf.wf = true → ∃ t v, exec (.nextBytes j) s = .next t ∧ exec (.nextBytes k) u = .next v ∧
      t.code = v.code ∧ t.slot j = v.slot k ∧ (t.code = .ok → ∀ x, s.arg[0].toNat ≤ x →
        x < s.arg[0].toNat + s.arg[1].toNat → t.buf.read x = v.buf.read x))

/-! Configuration (spec/41_configure.md). Each statement begins with the fields of the command's word. The entropy value
that a command takes with E, and the count of free values, are the model's (log entries 3, 5): seedOf and
configuredState name them. -/

/-- R203: CFG.SM makes the seed the slot's state. -/
def Obligations.CfgSmConfigures : Prop :=
  ∀ (slot : SlotNum) (e : Bool) (s : State),
    FieldsAre (.cfgSm slot e) 0x01 slot e false ∧
    exec (.cfgSm slot e) s = .next (configuredState slot (.sm (seedOf e s)) e 0 s)

/-- R204: CFG.XS fills xs[0..3] with the first four SplitMix64 outputs of the seed. -/
def Obligations.CfgXsConfigures : Prop :=
  ∀ (slot : SlotNum) (e : Bool) (s : State),
    FieldsAre (.cfgXs slot e) 0x02 slot e false ∧
    exec (.cfgXs slot e) s = .next (configuredState slot (.xs ⟨splitMixOutput (seedOf e s) 1,
      splitMixOutput (seedOf e s) 2, splitMixOutput (seedOf e s) 3, splitMixOutput (seedOf e s) 4⟩) e 0 s)

/-- R205: CFG.XSS takes ARG as the state, and raises ConfigurationError when all of it is 0. -/
def Obligations.CfgXssConfigures : Prop :=
  ∀ (slot : SlotNum) (s : State),
    FieldsAre (.cfgXss slot) 0x03 slot false false ∧
    (s.arg = #v[0, 0, 0, 0] → exec (.cfgXss slot) s = .next (errorState .configurationError (.cfgXss slot) s)) ∧
    (s.arg ≠ #v[0, 0, 0, 0] → exec (.cfgXss slot) s =
      .next { s.setSlot slot (.xs ⟨s.arg[0], s.arg[1], s.arg[2], s.arg[3]⟩) with code := .ok })

/-- R206, R151, R155: CFG.MT fills mt by init_genrand from the low 32 bits of the seed, with mti = 624. -/
def Obligations.CfgMtConfigures : Prop :=
  ∀ (slot : SlotNum) (e : Bool) (s : State), FieldsAre (.cfgMt slot e) 0x04 slot e false ∧ ∃ m : Mersenne,
    exec (.cfgMt slot e) s = .next (configuredState slot (.mt m) e 0 s) ∧ m.mti.val = 624 ∧
    m.mt[0] = lo32 (seedOf e s) ∧
    ∀ (i : Nat) (h : i + 1 < 624), m.mt[i + 1] =
      1812433253#32 * (m.mt[i] ^^^ (m.mt[i] >>> 30)) + BitVec.ofNat 32 (i + 1)

/-- R207: CFG.PCG raises ConfigurationError for an even increment (0x14057B7EF767814F with D, else ARG[1]), and else
takes two LCG steps around adding the seed. -/
def Obligations.CfgPcgConfigures : Prop :=
  ∀ (slot : SlotNum) (e d : Bool) (s : State),
    let inc := if d then 0x14057B7EF767814F#64 else s.arg[1]
    FieldsAre (.cfgPcg slot e d) 0x05 slot e d ∧
    (inc.toNat % 2 = 0 → exec (.cfgPcg slot e d) s = .next (errorState .configurationError (.cfgPcg slot e d) s)) ∧
    (inc.toNat % 2 = 1 → exec (.cfgPcg slot e d) s = .next (configuredState slot
      (.pcg ⟨(0 * 6364136223846793005#64 + inc + seedOf e s) * 6364136223846793005#64 + inc, inc⟩) e 0 s))

/-- R208, R168: CFG.CMWC raises ConfigurationError for a cycle (4096 with D, else ARG[1]) below 16, not a power of
two, or above 65536, and else fills the table with the high halves of the seed's SplitMix64 outputs and the carry
with the first later one below 809430660, which there always is. -/
def Obligations.CfgCmwcConfigures : Prop :=
  ∀ (slot : SlotNum) (e d : Bool) (s : State),
    let cycle := if d then 4096#64 else s.arg[1]
    FieldsAre (.cfgCmwc slot e d) 0x06 slot e d ∧
    (cycle.toNat < 16 ∨ cycle &&& (cycle - 1) ≠ 0 ∨ 65536 < cycle.toNat →
      exec (.cfgCmwc slot e d) s = .next (errorState .configurationError (.cfgCmwc slot e d) s)) ∧
    (16 ≤ cycle.toNat → cycle &&& (cycle - 1) = 0 → cycle.toNat ≤ 65536 → ∃ (k : Cmwc) (r : Nat),
      exec (.cfgCmwc slot e d) s = .next (configuredState slot (.cmwc k) e 0 s) ∧
      k.n = cycle.toNat ∧ k.q.length = k.n ∧ k.ci = k.n - 1 ∧
      (∀ j, j < k.n → k.q.getD j 0 = hi32 (splitMixOutput (seedOf e s) (j + 1))) ∧
      k.c = hi32 (splitMixOutput (seedOf e s) (k.n + r + 1)) ∧ k.c.toNat < 809430660 ∧
      ∀ r', r' < r → 809430660 ≤ (hi32 (splitMixOutput (seedOf e s) (k.n + r' + 1))).toNat)

/-- R209: CFG.CC fills the block input, with the counter 0 and the stream 0 with D, else ARG[1], and leaves the block
consumed. What blk then holds is open (log entry 7), so the statement holds whatever it is. -/
def Obligations.CfgCcConfigures : Prop :=
  ∀ (slot : SlotNum) (e d : Bool) (s : State), FieldsAre (.cfgCc slot e d) 0x07 slot e d ∧ ∃ blk,
    let stream := if d then 0#64 else s.arg[1]
    exec (.cfgCc slot e d) s = .next (configuredState slot (.cc ⟨#v[0x61707865, 0x3320646E, 0x79622D32, 0x6B206574,
      lo32 (seedOf e s), hi32 (seedOf e s), Config.chachaPad 0, Config.chachaPad 1, Config.chachaPad 2,
      Config.chachaPad 3, Config.chachaPad 4, Config.chachaPad 5, 0, 0, lo32 stream, hi32 stream], blk, 16⟩) e 1 s)

/-! Contract commands (spec/42_contract.md). Each statement begins with the fields of the command's word. -/

/-- R232: NEXT64. -/
def Obligations.Next64Result : Prop :=
  ∀ (slot : SlotNum) (s : State),
    FieldsAre (.next64 slot) 0x10 slot false false ∧
    (s.slot slot = none → exec (.next64 slot) s = .next (errorState .notConfigured (.next64 slot) s)) ∧
    (∀ g, s.slot slot = some g →
      exec (.next64 slot) s = .next { s.setSlot slot (draw64 g).2 with res0 := (draw64 g).1, code := .ok })

/-- R233: NEXT32, zero-extended. -/
def Obligations.Next32Result : Prop :=
  ∀ (slot : SlotNum) (s : State),
    FieldsAre (.next32 slot) 0x11 slot false false ∧
    (s.slot slot = none → exec (.next32 slot) s = .next (errorState .notConfigured (.next32 slot) s)) ∧
    (∀ g, s.slot slot = some g → exec (.next32 slot) s =
      .next { s.setSlot slot (draw32 g).2 with res0 := (draw32 g).1.setWidth 64, code := .ok })

/-- R235, R234: NEXTDBL answers the double that is exactly (x >> 11) / 2^53 for the draw x: not negative, and below 1. -/
def Obligations.NextDblResult : Prop :=
  ∀ (slot : SlotNum) (s : State),
    FieldsAre (.nextDbl slot) 0x12 slot false false ∧
    (s.slot slot = none → exec (.nextDbl slot) s = .next (errorState .notConfigured (.nextDbl slot) s)) ∧
    (∀ g, s.slot slot = some g → ∃ r : F64,
      exec (.nextDbl slot) s = .next { s.setSlot slot (draw64 g).2 with res0 := r, code := .ok } ∧
      r.isFinite = true ∧ r.sign = false ∧ r.units * 2 ^ 53 = ((draw64 g).1 >>> 11).toNat * 2 ^ 1074 ∧
      flt r 0x3FF0000000000000 = true)

/-- R237, R236: NEXTINT answers min + (x mod (max - min + 1)) in exact integers, which lies within the signed bounds,
and raises InvalidArgumentError when min > max. -/
def Obligations.NextIntResult : Prop :=
  ∀ (slot : SlotNum) (s : State),
    FieldsAre (.nextInt slot) 0x13 slot false false ∧
    (s.slot slot = none → exec (.nextInt slot) s = .next (errorState .notConfigured (.nextInt slot) s)) ∧
    (∀ g, s.slot slot = some g →
      (s.arg[1].toInt < s.arg[0].toInt →
        exec (.nextInt slot) s = .next (errorState .invalidArgument (.nextInt slot) s)) ∧
      (s.arg[0].toInt ≤ s.arg[1].toInt → ∃ r : Word,
        exec (.nextInt slot) s = .next { s.setSlot slot (draw64 g).2 with res0 := r, code := .ok } ∧
        r.toInt = s.arg[0].toInt + ((draw64 g).1.toNat : Int) % (s.arg[1].toInt - s.arg[0].toInt + 1) ∧
        s.arg[0].toInt ≤ r.toInt ∧ r.toInt ≤ s.arg[1].toInt))

/-- R240: NEXTBYTES raises BufferRange when [a, a + L) does not lie in BUF, and else writes the bytes of ceil(L / 8)
draws, least significant first, into [a, a + L) and no other byte; RES is not written. -/
def Obligations.NextBytesResult : Prop :=
  ∀ (slot : SlotNum) (s : State),
    FieldsAre (.nextBytes slot) 0x14 slot false false ∧
    (s.slot slot = none → exec (.nextBytes slot) s = .next (errorState .notConfigured (.nextBytes slot) s)) ∧
    (∀ g, s.slot slot = some g →
      (4096 < s.arg[0].toNat + s.arg[1].toNat →
        exec (.nextBytes slot) s = .next (errorState .bufferRange (.nextBytes slot) s)) ∧
      (s.arg[0].toNat + s.arg[1].toNat ≤ 4096 → s.buf.wf = true → ∃ m,
        exec (.nextBytes slot) s =
          .next { s.setSlot slot (drawAfter g ((s.arg[1].toNat + 7) / 8)) with buf := m, code := .ok } ∧
        m.wf = true ∧
        ∀ x, m.read x = if s.arg[0].toNat ≤ x ∧ x < s.arg[0].toNat + s.arg[1].toNat then
          (drawNumber g ((x - s.arg[0].toNat) / 8)).extractLsb' (8 * ((x - s.arg[0].toNat) % 8)) 8
          else s.buf.read x))

/-- R241: eight bytes of NEXTBYTES read little-endian are the word NEXT64 gives from the same state, and both leave
the slot in the same state. -/
def Obligations.EightBytesAreTheWord : Prop :=
  ∀ (slot : SlotNum) (s : State) (g : Engine), s.buf.wf = true → s.slot slot = some g → s.arg[1] = 8 →
    s.arg[0].toNat + 8 ≤ 4096 → ∃ t u, exec (.nextBytes slot) s = .next t ∧ exec (.next64 slot) s = .next u ∧
      memRead t.buf s.arg[0].toNat 8 = u.res0.toNat ∧ t.slot slot = u.slot slot

/-- R230: Draw64 and Draw32 of each engine: a 64-bit engine's word and its high half; a 32-bit engine's two
successive words, the first one high, and its one word. -/
def Obligations.DrawsByNativeWidth : Prop :=
  (∀ t, draw64 (.sm t) = ((smNext64 t).1, .sm (smNext64 t).2) ∧
    draw32 (.sm t) = (hi32 (smNext64 t).1, .sm (smNext64 t).2)) ∧
  (∀ x, draw64 (.xs x) = ((xsNext64 x).1, .xs (xsNext64 x).2) ∧
    draw32 (.xs x) = (hi32 (xsNext64 x).1, .xs (xsNext64 x).2)) ∧
  (∀ m, draw64 (.mt m) = (concat64 (mtNext32 m).1 (mtNext32 (mtNext32 m).2).1, .mt (mtNext32 (mtNext32 m).2).2) ∧
    draw32 (.mt m) = ((mtNext32 m).1, .mt (mtNext32 m).2)) ∧
  (∀ p, draw64 (.pcg p) =
      (concat64 (pcgNext32 p).1 (pcgNext32 (pcgNext32 p).2).1, .pcg (pcgNext32 (pcgNext32 p).2).2) ∧
    draw32 (.pcg p) = ((pcgNext32 p).1, .pcg (pcgNext32 p).2)) ∧
  (∀ k, draw64 (.cmwc k) =
      (concat64 (cmwcNext32 k).1 (cmwcNext32 (cmwcNext32 k).2).1, .cmwc (cmwcNext32 (cmwcNext32 k).2).2) ∧
    draw32 (.cmwc k) = ((cmwcNext32 k).1, .cmwc (cmwcNext32 k).2)) ∧
  (∀ c, draw64 (.cc c) = (concat64 (ccNext32 c).1 (ccNext32 (ccNext32 c).2).1, .cc (ccNext32 (ccNext32 c).2).2) ∧
    draw32 (.cc c) = ((ccNext32 c).1, .cc (ccNext32 c).2))

/-! Facade commands (spec/43_facade.md). -/

/-- R260: NEXTPCT answers 1 + (x mod 100). -/
def Obligations.NextPctResult : Prop :=
  ∀ (slot : SlotNum) (s : State),
    FieldsAre (.nextPct slot) 0x20 slot false false ∧
    (s.slot slot = none → exec (.nextPct slot) s = .next (errorState .notConfigured (.nextPct slot) s)) ∧
    (∀ g, s.slot slot = some g → exec (.nextPct slot) s =
      .next { s.setSlot slot (draw64 g).2 with res0 := BitVec.ofNat 64 (1 + (draw64 g).1.toNat % 100), code := .ok })

/-- R262: GAMBLE answers whether 1 + (x mod 100) is at most the signed threshold; a draw is made in every case. -/
def Obligations.GambleResult : Prop :=
  ∀ (slot : SlotNum) (s : State),
    FieldsAre (.gamble slot) 0x21 slot false false ∧
    (s.slot slot = none → exec (.gamble slot) s = .next (errorState .notConfigured (.gamble slot) s)) ∧
    (∀ g, s.slot slot = some g → exec (.gamble slot) s = .next { s.setSlot slot (draw64 g).2 with
      res0 := if ((1 + (draw64 g).1.toNat % 100 : Nat) : Int) ≤ s.arg[0].toInt then 1 else 0, code := .ok })

/-- R264: GAMBLED answers whether the unit double of the draw is less than the probability, by the quiet comparison. -/
def Obligations.GambleDResult : Prop :=
  ∀ (slot : SlotNum) (s : State),
    FieldsAre (.gambleD slot) 0x22 slot false false ∧
    (s.slot slot = none → exec (.gambleD slot) s = .next (errorState .notConfigured (.gambleD slot) s)) ∧
    (∀ g, s.slot slot = some g → exec (.gambleD slot) s = .next { s.setSlot slot (draw64 g).2 with
      res0 := if flt (toUnitDouble (draw64 g).1) s.arg[0] then 1 else 0, code := .ok })

/-- R266: NEXTDRANGE raises InvalidArgumentError when max < min, and else answers min + (max - min) * d in that order
of evaluation, a NaN when a bound is one. Which NaN is open (log entry 6): the statement holds whichever it is. -/
def Obligations.NextDRangeResult : Prop :=
  ∀ (slot : SlotNum) (s : State),
    FieldsAre (.nextDRange slot) 0x23 slot false false ∧
    (s.slot slot = none → exec (.nextDRange slot) s = .next (errorState .notConfigured (.nextDRange slot) s)) ∧
    (∀ g, s.slot slot = some g →
      (flt s.arg[1] s.arg[0] = true →
        exec (.nextDRange slot) s = .next (errorState .invalidArgument (.nextDRange slot) s)) ∧
      (flt s.arg[1] s.arg[0] = false → ∃ nan : F64, nan.isNaN = true ∧ exec (.nextDRange slot) s =
        .next { s.setSlot slot (draw64 g).2 with
          res0 := fadd nan s.arg[0] (fmul nan (fsub nan s.arg[1] s.arg[0]) (toUnitDouble (draw64 g).1)),
          code := .ok, fresh := s.fresh + 1 } ∧
        (F64.isNaN s.arg[0] = true ∨ F64.isNaN s.arg[1] = true →
          (fadd nan s.arg[0] (fmul nan (fsub nan s.arg[1] s.arg[0]) (toUnitDouble (draw64 g).1))).isNaN = true)))

/-- R268: NEXTBOOL answers bit 0 of the draw. -/
def Obligations.NextBoolResult : Prop :=
  ∀ (slot : SlotNum) (s : State),
    FieldsAre (.nextBool slot) 0x24 slot false false ∧
    (s.slot slot = none → exec (.nextBool slot) s = .next (errorState .notConfigured (.nextBool slot) s)) ∧
    (∀ g, s.slot slot = some g → exec (.nextBool slot) s = .next { s.setSlot slot (draw64 g).2 with
      res0 := if (draw64 g).1.getLsbD 0 then 1 else 0, code := .ok })

/-- R270: NEXTCHAR answers CHAR_LO + (x mod (CHAR_HI - CHAR_LO + 1)), a code of the range, whatever the range. -/
def Obligations.NextCharResult : Prop :=
  ∀ (slot : SlotNum) (s : State),
    FieldsAre (.nextChar slot) 0x25 slot false false ∧
    (s.slot slot = none → exec (.nextChar slot) s = .next (errorState .notConfigured (.nextChar slot) s)) ∧
    (∀ g, s.slot slot = some g → ∃ r : Word,
      exec (.nextChar slot) s = .next { s.setSlot slot (draw64 g).2 with res0 := r, code := .ok } ∧
      r.toNat = Config.charLo.toNat + (draw64 g).1.toNat % (Config.charHi.toNat - Config.charLo.toNat + 1) ∧
      Config.charLo.toNat ≤ r.toNat ∧ r.toNat ≤ Config.charHi.toNat)

/-- R272: NEXTINDEX raises InvalidArgumentError for length 0, and else answers x mod n, an index below the length. -/
def Obligations.NextIndexResult : Prop :=
  ∀ (slot : SlotNum) (s : State),
    FieldsAre (.nextIndex slot) 0x26 slot false false ∧
    (s.slot slot = none → exec (.nextIndex slot) s = .next (errorState .notConfigured (.nextIndex slot) s)) ∧
    (∀ g, s.slot slot = some g →
      (s.arg[0] = 0 → exec (.nextIndex slot) s = .next (errorState .invalidArgument (.nextIndex slot) s)) ∧
      (s.arg[0] ≠ 0 → exec (.nextIndex slot) s =
        .next { s.setSlot slot (draw64 g).2 with res0 := (draw64 g).1 % s.arg[0], code := .ok } ∧
        ((draw64 g).1 % s.arg[0]).toNat < s.arg[0].toNat))

/-- R275: SHUFFLE raises Misaligned, then BufferRange, and else permutes the n elements at b as the document's
Fisher-Yates does with n - 1 draws, and writes no byte outside them; RES is not written. -/
def Obligations.ShuffleResult : Prop :=
  ∀ (slot : SlotNum) (s : State),
    FieldsAre (.shuffle slot) 0x27 slot false false ∧
    (s.slot slot = none → exec (.shuffle slot) s = .next (errorState .notConfigured (.shuffle slot) s)) ∧
    (∀ g, s.slot slot = some g →
      (s.arg[0].toNat % 8 ≠ 0 → exec (.shuffle slot) s = .next (errorState .misaligned (.shuffle slot) s)) ∧
      (s.arg[0].toNat % 8 = 0 → 4096 < s.arg[0].toNat + 8 * s.arg[1].toNat →
        exec (.shuffle slot) s = .next (errorState .bufferRange (.shuffle slot) s)) ∧
      (s.arg[0].toNat % 8 = 0 → s.arg[0].toNat + 8 * s.arg[1].toNat ≤ 4096 → s.buf.wf = true → ∃ m,
        exec (.shuffle slot) s = .next { s.setSlot slot (drawAfter g (s.arg[1].toNat - 1)) with buf := m, code := .ok } ∧
        m.wf = true ∧
        (∀ k, k < s.arg[1].toNat → readElement m s.arg[0].toNat k =
          fisherYates (s.arg[1].toNat - 1) g (readElement s.buf s.arg[0].toNat) k) ∧
        ∀ x, x < s.arg[0].toNat ∨ s.arg[0].toNat + 8 * s.arg[1].toNat ≤ x → m.read x = s.buf.read x))

/-- R275: the final contents of the region are a permutation of its initial elements. -/
def Obligations.ShufflePermutesTheElements : Prop :=
  ∀ (slot : SlotNum) (s t : State), s.buf.wf = true → exec (.shuffle slot) s = .next t → t.code = .ok →
    List.Perm ((List.range s.arg[1].toNat).map (readElement t.buf s.arg[0].toNat))
      ((List.range s.arg[1].toNat).map (readElement s.buf s.arg[0].toNat))

/-- R278: NEXTPOLAR answers the angle d1 * TWO_PI and the distance r * sqrt(d2), the angle's draw first. Which NaN the
distance is, where it is one, is open (log entry 6): the statement holds whichever it is. -/
def Obligations.NextPolarResult : Prop :=
  ∀ (slot : SlotNum) (s : State),
    FieldsAre (.nextPolar slot) 0x28 slot false false ∧
    (s.slot slot = none → exec (.nextPolar slot) s = .next (errorState .notConfigured (.nextPolar slot) s)) ∧
    (∀ g, s.slot slot = some g → ∃ nan : F64, nan.isNaN = true ∧ exec (.nextPolar slot) s =
      .next { s.setSlot slot (draw64 (draw64 g).2).2 with
        res0 := fmul nan (toUnitDouble (draw64 g).1) 0x401921FB54442D18,
        res1 := fmul nan s.arg[0] (fsqrt nan (toUnitDouble (draw64 (draw64 g).2).1)), code := .ok,
        fresh := s.fresh + 1 })

/-! Engine cores (spec/40_engine_cores.md). -/

/-- R131 to R133, R140, R161 to R163: the native draws of SplitMix64 (the mix of the advanced state), Xoshiro256** (the
output of the state before the update) and PCG32 (the permuted state before the step), each with the new state. -/
def Obligations.NativeDrawRecurrences : Prop :=
  (∀ t : Word,
    let z0 := t + 0x9E3779B97F4A7C15#64
    let z1 := (z0 ^^^ (z0 >>> 30)) * 0xBF58476D1CE4E5B9#64
    let z2 := (z1 ^^^ (z1 >>> 27)) * 0x94D049BB133111EB#64
    smNext64 t = (z2 ^^^ (z2 >>> 31), z0)) ∧
  (∀ s0 s1 s2 s3 : Word, xsNext64 ⟨s0, s1, s2, s3⟩ = ((s1 * 5).rotateLeft 7 * 9,
    ⟨s0 ^^^ s1 ^^^ s3, s0 ^^^ s1 ^^^ s2, s0 ^^^ s2 ^^^ (s1 <<< 17), (s1 ^^^ s3).rotateLeft 45⟩)) ∧
  (∀ pst pinc : Word, pcgNext32 ⟨pst, pinc⟩ =
    ((((pst ^^^ (pst >>> 18)) >>> 27).setWidth 32).rotateRight (pst >>> 59).toNat,
      ⟨pst * 6364136223846793005#64 + pinc, pinc⟩))

/-- R135: any run of at most 2^64 consecutive SplitMix64 outputs has pairwise distinct values. -/
def Obligations.SplitMixOutputsAreDistinct : Prop :=
  ∀ (t : Word) (i j : Nat), i < 2 ^ 64 → j < 2 ^ 64 → (smNext64 (smAfter i t)).1 = (smNext64 (smAfter j t)).1 → i = j

/-- R142: a Xoshiro256** state that is not all zero never becomes all zero, and seeding from a u64 never gives the
all-zero state. -/
def Obligations.XoshiroStateNeverAllZero : Prop :=
  (∀ x : Xoshiro, EngineOk (.xs x) → EngineOk (.xs (xsNext64 x).2)) ∧ ∀ seed : Word, EngineOk (.xs (xsSeed seed))

/-- R152: the regenerated block, entry by entry: the entries with index below k already hold their new values when
entry k is computed. -/
def Obligations.MtTwistRecurrence : Prop :=
  ∀ (mt new : Vector Word32 624), new = mtTwist mt →
    let mix := fun u l m : Word32 =>
      let y := (u &&& 0x80000000#32) ||| (l &&& 0x7FFFFFFF#32)
      m ^^^ (y >>> 1) ^^^ (if y.getLsbD 0 then 0x9908B0DF#32 else 0#32)
    (∀ (k : Nat) (h : k < 227), new[k] = mix mt[k] mt[k + 1] mt[k + 397]) ∧
    (∀ (k : Nat) (h : 227 ≤ k) (h' : k < 623), new[k] = mix mt[k] mt[k + 1] (new[k - 227]'(by omega))) ∧
    new[623] = mix mt[623] new[0] new[396]

/-- R154, R153: an MT19937 draw tempers the word at mti and advances mti; when mti is 624 it regenerates the block
first. -/
def Obligations.MtDrawTempersTheNextWord : Prop :=
  ∀ m : Mersenne,
    let temper := fun y : Word32 =>
      let y := y ^^^ (y >>> 11)
      let y := y ^^^ ((y <<< 7) &&& 0x9D2C5680#32)
      let y := y ^^^ ((y <<< 15) &&& 0xEFC60000#32)
      y ^^^ (y >>> 18)
    (∀ h : m.mti.val < 624, (mtNext32 m).1 = temper m.mt[m.mti.val] ∧ (mtNext32 m).2.mt = m.mt ∧
      (mtNext32 m).2.mti.val = m.mti.val + 1) ∧
    (m.mti.val = 624 → (mtNext32 m).1 = temper (mtTwist m.mt)[0] ∧ (mtNext32 m).2.mt = mtTwist m.mt ∧
      (mtNext32 m).2.mti.val = 1)

/-- R166: the CMWC draw in exact integers. With T = 18782 * Q[ci] + c, high word h and low word l: the correction fires
exactly when l + h reaches 2^32; the stored and answered value is 0xFFFFFFFE - x mod 2^32. -/
def Obligations.CmwcDrawExact : Prop :=
  ∀ k : Cmwc, CmwcSize k.n → k.q.length = k.n → k.ci < k.n →
    let ci := (k.ci + 1) % k.n
    let T := 18782 * (k.q.getD ci 0).toNat + k.c.toNat
    let h := T / 2 ^ 32
    let l := T % 2 ^ 32
    let x := if 2 ^ 32 ≤ l + h then l + h - 2 ^ 32 + 1 else l + h
    let r := (cmwcNext32 k).2
    r.n = k.n ∧ r.ci = ci ∧ r.c.toNat = (if 2 ^ 32 ≤ l + h then h + 1 else h) ∧
      (cmwcNext32 k).1.toNat = (0xFFFFFFFE + 2 ^ 32 - x) % 2 ^ 32 ∧ r.q.length = k.q.length ∧
      ∀ j, j < k.n → r.q.getD j 0 = if j = ci then (cmwcNext32 k).1 else k.q.getD j 0

/-- R167: after every CMWC draw the carry is at most 18782: so is the high word of T = 18782 * Q[ci] + c, and when it is
18782 the low word is at most c - 18782, so that the correction does not fire. -/
def Obligations.CmwcCarryBound : Prop :=
  (∀ k : Cmwc, (cmwcNext32 k).2.c.toNat ≤ 18782) ∧
  ∀ q c : Word32,
    let T := 18782 * q.toNat + c.toNat
    T / 2 ^ 32 ≤ 18782 ∧ (T / 2 ^ 32 = 18782 → T % 2 ^ 32 + 18782 ≤ c.toNat)

/-- R181: the quarter-round on four distinct words, and the twelve other words unchanged. -/
def Obligations.QuarterRoundWords : Prop :=
  ∀ (x : Vector Word32 16) (a b c d : Fin 16), a ≠ b → a ≠ c → a ≠ d → b ≠ c → b ≠ d → c ≠ d →
    let a1 := x[a] + x[b]
    let d1 := (x[d] ^^^ a1).rotateLeft 16
    let c1 := x[c] + d1
    let b1 := (x[b] ^^^ c1).rotateLeft 12
    let a2 := a1 + b1
    let d2 := (d1 ^^^ a2).rotateLeft 8
    let c2 := c1 + d2
    let b2 := (b1 ^^^ c2).rotateLeft 7
    let y := quarterRound x a b c d
    y[a] = a2 ∧ y[b] = b2 ∧ y[c] = c2 ∧ y[d] = d2 ∧
      ∀ j : Fin 16, j ≠ a → j ≠ b → j ≠ c → j ≠ d → y[j] = x[j]

/-- R183, R184, R185: a ChaCha draw answers the next word of the block; when the block is consumed it first makes the
block of the current counter and advances the 64-bit counter, which wraps. The block is ten double rounds, each four
column quarter-rounds and then four diagonal ones (QuarterRoundWords says what one is), with the input added. -/
def Obligations.ChaChaDrawAndBlock : Prop :=
  ∀ k : ChaCha,
    let columns := fun x : Vector Word32 16 =>
      quarterRound (quarterRound (quarterRound (quarterRound x 0 4 8 12) 1 5 9 13) 2 6 10 14) 3 7 11 15
    let diagonals := fun x : Vector Word32 16 =>
      quarterRound (quarterRound (quarterRound (quarterRound x 0 5 10 15) 1 6 11 12) 2 7 8 13) 3 4 9 14
    (∀ h : k.pos.val < 16, ccNext32 k = (k.blk[k.pos.val], ⟨k.inp, k.blk, ⟨k.pos.val + 1, by omega⟩⟩)) ∧
    (k.pos.val = 16 → ∃ n : ChaCha, ccNext32 k = (n.blk[0], ⟨n.inp, n.blk, 1⟩) ∧
      (∀ j : Fin 16, n.blk[j] = (Nat.repeat (fun x => diagonals (columns x)) 10 k.inp)[j] + k.inp[j]) ∧
      ccCounter n = ccCounter k + 1 ∧ ∀ j : Fin 16, j ≠ 12 → j ≠ 13 → n.inp[j] = k.inp[j])

/-- R22: the three rotations are rotations, for every amount they are used with. -/
def Obligations.RotationsRotate : Prop :=
  (∀ (x : Word) (k : Nat), k < 64 → rotl64 x k = x.rotateLeft k) ∧
  ∀ (x : Word32) (k : Nat), k < 32 → rotl32 x k = x.rotateLeft k ∧ rotr32 x k = x.rotateRight k

/-! Binary64 (spec/00_scope.md R23, spec/42_contract.md R234). -/

/-- R234: the unit double of a draw x is exactly (x >> 11) / 2^53, not negative, and at most 1 - 2^-53. -/
def Obligations.UnitDoubleIsExact : Prop :=
  ∀ x : Word, (toUnitDouble x).isFinite = true ∧ (toUnitDouble x).sign = false ∧
    (toUnitDouble x).units * 2 ^ 53 = (x >>> 11).toNat * 2 ^ 1074 ∧ flt 0x3FEFFFFFFFFFFFFF (toUnitDouble x) = false

/-- R23: the quiet less-than compares the values of operands that are no NaN, minus infinity being below and plus
infinity above every other value, and is false when an operand is a NaN. -/
def Obligations.LessThanComparesValues : Prop :=
  ∀ a b : F64, (a.isFinite = true → b.isFinite = true → flt a b = decide (a.units < b.units)) ∧
    (a.isNaN = true ∨ b.isNaN = true → flt a b = false) ∧
    flt plusInfinity b = false ∧ flt a minusInfinity = false ∧
    (b.isNaN = false → b ≠ minusInfinity → flt minusInfinity b = true) ∧
    (a.isNaN = false → a ≠ plusInfinity → flt a plusInfinity = true)

/-- R23: sums, differences, products and square roots. Of finite operands, the result is the exact one rounded to
nearest, ties to even, or to an infinity when it is too great; an exact zero sum is +0 but for two negative zeros, and
a product has the product of the signs. Then the operands that are NaNs or infinities, and the roots. Which NaN a
result is, is open (log entry 6): nan stands for any pattern. -/
def Obligations.ArithmeticRoundsToNearestEven : Prop :=
  ∀ nan a b : F64,
    let signedInfinity := fun s : Bool => if s then minusInfinity else plusInfinity
    (a.isFinite = true → b.isFinite = true →
      RoundsTo (a.units + b.units) 1 (fadd nan a b) ∧
      RoundsTo (a.units - b.units) 1 (fsub nan a b) ∧
      RoundsTo (a.units * b.units) (2 ^ 1074) (fmul nan a b) ∧
      (a.units + b.units = 0 → fadd nan a b = if a.sign && b.sign then 0x8000000000000000 else 0) ∧
      (a.units - b.units = 0 → fsub nan a b = if a.sign && !b.sign then 0x8000000000000000 else 0) ∧
      (fmul nan a b).sign = (a.sign != b.sign)) ∧
    (a.isNaN = true ∨ b.isNaN = true → fadd nan a b = nan ∧ fsub nan a b = nan ∧ fmul nan a b = nan) ∧
    (a.isInf = true → b.isFinite = true → fadd nan a b = a ∧ fsub nan a b = a) ∧
    (a.isFinite = true → b.isInf = true → fadd nan a b = b ∧ fsub nan a b = signedInfinity (!b.sign)) ∧
    (a.isInf = true → b.isInf = true →
      fadd nan a b = (if a.sign = b.sign then a else nan) ∧ fsub nan a b = (if a.sign = b.sign then nan else a)) ∧
    (a.isNaN = false → b.isNaN = false → a.isInf = true ∨ b.isInf = true →
      fmul nan a b = if a.isZero = true ∨ b.isZero = true then nan else signedInfinity (a.sign != b.sign)) ∧
    (a.isNaN = true → fsqrt nan a = nan) ∧
    (a.isZero = true → fsqrt nan a = a) ∧
    (a.isNaN = false → a.isZero = false → a.sign = true → fsqrt nan a = nan) ∧
    fsqrt nan plusInfinity = plusInfinity ∧
    (a.isFinite = true → a.isZero = false → a.sign = false → NearestRoot (a.magnitude * 2 ^ 1074) (fsqrt nan a))

/-! The invariant of the block. -/

/-- R35, R41, R43, R44, R167, R168, R182: every step, whatever the host does, keeps the invariant: the engine states as
the rules give them, BUF in canonical form, and no recorded error while STICKY is 0. -/
def Obligations.InvariantKeptByEveryStep : Prop :=
  ∀ s t : State, Inv s → step s = .next t → Inv t

/-- R50: the state right after reset meets the invariant. -/
def Obligations.InvariantHoldsAtReset : Prop := Inv State.reset
end

