-- ==== Sys2Proof/Laws/Buf.lean ====
section
/-! SUPPORT. The laws of BUF: a read after a write, the canonical form kept by every operation, and what a wide write
changes and leaves (spec/20_memory.md R70, R72). -/

namespace Sys2Proof.Machine

/-! The list of cells. -/

theorem lookupCell_insertCell (cs : List Host.Cell) (a x : Nat) (b : Byte) :
    ∀ lo, cellsOk lo cs = true → lookupCell (insertCell cs a b) x = if x = a then some b else lookupCell cs x := by
  induction cs with
  | nil => intro lo _; simp [insertCell, lookupCell, eq_comm]
  | cons c cs ih =>
    intro lo h
    simp only [cellsOk, Bool.and_eq_true, decide_eq_true_eq] at h
    simp only [insertCell]
    split
    · simp [lookupCell, eq_comm]
    · split
      · rename_i h2
        subst h2
        simp only [lookupCell, eq_comm]
        split <;> rfl
      · simp only [lookupCell, ih _ h.2]
        by_cases hx : x = a
        · subst hx; simp; omega
        · simp [hx]

theorem cellsOk_mono (cs : List Host.Cell) {lo lo' : Nat} (hle : lo' ≤ lo) (h : cellsOk lo cs = true) :
    cellsOk lo' cs = true := by
  cases cs with
  | nil => rfl
  | cons c cs =>
    simp only [cellsOk, Bool.and_eq_true, decide_eq_true_eq] at h ⊢
    exact ⟨⟨by omega, h.1.2⟩, h.2⟩

theorem cellsOk_insertCell (cs : List Host.Cell) (a : Nat) (b : Byte) (ha : a < Config.bufSize) :
    ∀ lo, lo ≤ a → cellsOk lo cs = true → cellsOk lo (insertCell cs a b) = true := by
  induction cs with
  | nil => intro lo hlo _; simp only [insertCell, cellsOk, Bool.and_eq_true, decide_eq_true_eq]; exact ⟨⟨hlo, ha⟩, trivial⟩
  | cons c cs ih =>
    intro lo hlo h
    simp only [cellsOk, Bool.and_eq_true, decide_eq_true_eq] at h
    simp only [insertCell]
    split
    · simp only [cellsOk, Bool.and_eq_true, decide_eq_true_eq]
      exact ⟨⟨hlo, ha⟩, ⟨by omega, h.1.2⟩, h.2⟩
    · split
      · rename_i h2
        simp only [cellsOk, Bool.and_eq_true, decide_eq_true_eq]
        exact ⟨⟨hlo, ha⟩, h2 ▸ h.2⟩
      · simp only [cellsOk, Bool.and_eq_true, decide_eq_true_eq]
        exact ⟨h.1, ih _ (by omega) h.2⟩

/-! One byte. -/

/-- What is read after one byte was written: the byte at its address, and everything else as before. -/
theorem read_write (m : Memory) (hm : m.wf = true) (a x : Nat) (b : Byte) (ha : a < Config.bufSize) :
    (m.write a b).read x = if x = a then b else m.read x := by
  simp only [Memory.write, if_pos ha, Memory.read, Memory.unlisted, lookupCell_insertCell _ _ _ _ _ hm]
  split <;> rfl

/-- A write keeps the canonical form. -/
@[simp] theorem wf_write (m : Memory) (hm : m.wf = true) (a : Nat) (b : Byte) : (m.write a b).wf = true := by
  simp only [Memory.write]
  split
  · exact cellsOk_insertCell _ _ _ (by assumption) _ (Nat.zero_le _) hm
  · exact hm

@[simp] theorem write_epoch (m : Memory) (a : Nat) (b : Byte) : (m.write a b).epoch = m.epoch := by
  simp only [Memory.write]; split <;> rfl

/-- An unwritten BUF is in canonical form. -/
@[simp] theorem wf_empty (k : Nat) : Memory.wf ⟨k, []⟩ = true := rfl

/-- A byte that is not listed reads as the free byte of its epoch (R48, 93 I3). -/
@[simp] theorem read_empty (k a : Nat) : Memory.read ⟨k, []⟩ a = Config.bufFree k a := rfl

/-! Several bytes. -/

/-- MemWrite keeps the canonical form. -/
@[simp] theorem wf_memWrite (n : Nat) (m : Memory) (hm : m.wf = true) (a : Nat) (v : Word) : (memWrite m a n v).wf = true := by
  induction n generalizing m a v with
  | zero => exact hm
  | succ n ih => exact ih _ (wf_write m hm a _) _ _

@[simp] theorem memWrite_epoch (n : Nat) (m : Memory) (a : Nat) (v : Word) : (memWrite m a n v).epoch = m.epoch := by
  induction n generalizing m a v with
  | zero => rfl
  | succ n ih => simp [memWrite, ih]

/-- What MemWrite changes and leaves (R70): byte k of v at a + k, for k < n, and everything else as before. -/
theorem read_memWrite (n : Nat) (m : Memory) (hm : m.wf = true) (a x : Nat) (v : Word) (h : a + n ≤ Config.bufSize) :
    (memWrite m a n v).read x = if a ≤ x ∧ x < a + n then v.extractLsb' (8 * (x - a)) 8 else m.read x := by
  induction n generalizing m a v with
  | zero => simp [memWrite]
  | succ n ih =>
    rw [memWrite, ih _ (wf_write m hm a _) _ _ (by omega), read_write m hm a x _ (by omega)]
    by_cases hx : x = a
    · subst hx
      rw [if_neg (by omega), if_pos rfl, if_pos (by omega)]; simp
    · by_cases h1 : a + 1 ≤ x ∧ x < a + 1 + n
      · rw [if_pos h1, if_pos (by omega)]
        have hk : 8 * (x - a) = 8 + 8 * (x - (a + 1)) := by omega
        rw [hk]
        ext i hi
        simp [BitVec.getElem_extractLsb', BitVec.getLsbD_ushiftRight, Nat.add_assoc]
      · rw [if_neg h1, if_neg hx, if_neg (by omega)]

/-- Bytes outside the stored ones are as before. -/
theorem read_memWrite_outside (n : Nat) (m : Memory) (hm : m.wf = true) (a x : Nat) (v : Word)
    (h : a + n ≤ Config.bufSize) (hx : x < a ∨ a + n ≤ x) : (memWrite m a n v).read x = m.read x := by
  rw [read_memWrite n m hm a x v h, if_neg (by omega)]

end Sys2Proof.Machine
end

