-- ==== Sys2Proof/Laws/State.lean ====
section
/-! SUPPORT. One lemma per field per state update, true by rfl, so that no proof unfolds a record update; and the
slot laws: what a slot reads after a slot was replaced. -/

namespace Sys2Proof.Machine

/-! setSlot: only the slots change. -/

@[simp] theorem setSlot_arg (s : State) (k : SlotNum) (g : Engine) : (s.setSlot k g).arg = s.arg := rfl
@[simp] theorem setSlot_res0 (s : State) (k : SlotNum) (g : Engine) : (s.setSlot k g).res0 = s.res0 := rfl
@[simp] theorem setSlot_res1 (s : State) (k : SlotNum) (g : Engine) : (s.setSlot k g).res1 = s.res1 := rfl
@[simp] theorem setSlot_code (s : State) (k : SlotNum) (g : Engine) : (s.setSlot k g).code = s.code := rfl
@[simp] theorem setSlot_sticky (s : State) (k : SlotNum) (g : Engine) : (s.setSlot k g).sticky = s.sticky := rfl
@[simp] theorem setSlot_errcmd (s : State) (k : SlotNum) (g : Engine) : (s.setSlot k g).errcmd = s.errcmd := rfl
@[simp] theorem setSlot_buf (s : State) (k : SlotNum) (g : Engine) : (s.setSlot k g).buf = s.buf := rfl
@[simp] theorem setSlot_hostOps (s : State) (k : SlotNum) (g : Engine) : (s.setSlot k g).hostOps = s.hostOps := rfl
@[simp] theorem setSlot_readData (s : State) (k : SlotNum) (g : Engine) : (s.setSlot k g).readData = s.readData := rfl
@[simp] theorem setSlot_fresh (s : State) (k : SlotNum) (g : Engine) : (s.setSlot k g).fresh = s.fresh := rfl

@[simp] theorem setSlot_slots (s : State) (k : SlotNum) (g : Engine) :
    (s.setSlot k g).slots = s.slots.set k.toNat (some g) (slotNum_lt k) := rfl

/-- The replaced slot holds the new record (R200). -/
@[simp] theorem setSlot_slot_same (s : State) (k : SlotNum) (g : Engine) : (s.setSlot k g).slot k = some g := by
  simp [State.slot, State.setSlot]

/-- Every other slot is as before (R39). -/
theorem setSlot_slot_other (s : State) (j k : SlotNum) (g : Engine) (h : j ≠ k) :
    (s.setSlot k g).slot j = s.slot j := by
  have hk : ¬k.toNat = j.toNat := fun e => h (BitVec.eq_of_toNat_eq e.symm)
  simp [State.slot, State.setSlot, hk]

/-- A slot is read from the field slots alone. -/
theorem slot_congr {s t : State} (h : t.slots = s.slots) (k : SlotNum) : t.slot k = s.slot k := by
  simp [State.slot, h]

/-! raise: only CODE, STICKY and ERRCMD change (R304). -/

@[simp] theorem raise_arg (e : ErrorCode) (w : Word32) (s : State) : (raise e w s).arg = s.arg := rfl
@[simp] theorem raise_res0 (e : ErrorCode) (w : Word32) (s : State) : (raise e w s).res0 = s.res0 := rfl
@[simp] theorem raise_res1 (e : ErrorCode) (w : Word32) (s : State) : (raise e w s).res1 = s.res1 := rfl
@[simp] theorem raise_code (e : ErrorCode) (w : Word32) (s : State) : (raise e w s).code = e := rfl
@[simp] theorem raise_sticky (e : ErrorCode) (w : Word32) (s : State) : (raise e w s).sticky = true := rfl
@[simp] theorem raise_errcmd (e : ErrorCode) (w : Word32) (s : State) : (raise e w s).errcmd = w := rfl
@[simp] theorem raise_slots (e : ErrorCode) (w : Word32) (s : State) : (raise e w s).slots = s.slots := rfl
@[simp] theorem raise_buf (e : ErrorCode) (w : Word32) (s : State) : (raise e w s).buf = s.buf := rfl
@[simp] theorem raise_hostOps (e : ErrorCode) (w : Word32) (s : State) : (raise e w s).hostOps = s.hostOps := rfl
@[simp] theorem raise_readData (e : ErrorCode) (w : Word32) (s : State) : (raise e w s).readData = s.readData := rfl
@[simp] theorem raise_fresh (e : ErrorCode) (w : Word32) (s : State) : (raise e w s).fresh = s.fresh := rfl

@[simp] theorem raise_slot (e : ErrorCode) (w : Word32) (s : State) (k : SlotNum) : (raise e w s).slot k = s.slot k := rfl

/-! takeSeed: only the free-value counter changes, and only with E (R201). -/

@[simp] theorem takeSeed_arg (e : Bool) (s : State) : (takeSeed e s).2.arg = s.arg := by cases e <;> rfl
@[simp] theorem takeSeed_res0 (e : Bool) (s : State) : (takeSeed e s).2.res0 = s.res0 := by cases e <;> rfl
@[simp] theorem takeSeed_res1 (e : Bool) (s : State) : (takeSeed e s).2.res1 = s.res1 := by cases e <;> rfl
@[simp] theorem takeSeed_code (e : Bool) (s : State) : (takeSeed e s).2.code = s.code := by cases e <;> rfl
@[simp] theorem takeSeed_sticky (e : Bool) (s : State) : (takeSeed e s).2.sticky = s.sticky := by cases e <;> rfl
@[simp] theorem takeSeed_errcmd (e : Bool) (s : State) : (takeSeed e s).2.errcmd = s.errcmd := by cases e <;> rfl
@[simp] theorem takeSeed_slots (e : Bool) (s : State) : (takeSeed e s).2.slots = s.slots := by cases e <;> rfl
@[simp] theorem takeSeed_buf (e : Bool) (s : State) : (takeSeed e s).2.buf = s.buf := by cases e <;> rfl
@[simp] theorem takeSeed_hostOps (e : Bool) (s : State) : (takeSeed e s).2.hostOps = s.hostOps := by cases e <;> rfl
@[simp] theorem takeSeed_readData (e : Bool) (s : State) : (takeSeed e s).2.readData = s.readData := by cases e <;> rfl

@[simp] theorem takeSeed_fresh (e : Bool) (s : State) :
    (takeSeed e s).2.fresh = if e then s.fresh + 1 else s.fresh := by cases e <;> rfl
@[simp] theorem takeSeed_value (e : Bool) (s : State) :
    (takeSeed e s).1 = if e then Config.entropy s.fresh else s.arg[0] := by cases e <;> rfl
@[simp] theorem takeSeed_false (s : State) : takeSeed false s = (s.arg[0], s) := rfl

/-! applyReset: the reset values, with what is not the block's kept (R340). -/

@[simp] theorem applyReset_arg (s : State) : (applyReset s).arg = #v[0, 0, 0, 0] := rfl
@[simp] theorem applyReset_res0 (s : State) : (applyReset s).res0 = 0 := rfl
@[simp] theorem applyReset_res1 (s : State) : (applyReset s).res1 = 0 := rfl
@[simp] theorem applyReset_code (s : State) : (applyReset s).code = .ok := rfl
@[simp] theorem applyReset_sticky (s : State) : (applyReset s).sticky = false := rfl
@[simp] theorem applyReset_errcmd (s : State) : (applyReset s).errcmd = 0 := rfl
@[simp] theorem applyReset_slots (s : State) : (applyReset s).slots = State.reset.slots := rfl
@[simp] theorem applyReset_buf (s : State) : (applyReset s).buf = ⟨s.fresh + 1, []⟩ := rfl
@[simp] theorem applyReset_hostOps (s : State) : (applyReset s).hostOps = s.hostOps := rfl
@[simp] theorem applyReset_readData (s : State) : (applyReset s).readData = s.readData := rfl
@[simp] theorem applyReset_fresh (s : State) : (applyReset s).fresh = s.fresh + 1 := rfl

/-- Every slot is EMPTY at reset (R46). -/
@[simp] theorem reset_slot (k : SlotNum) : State.reset.slot k = none := by
  revert k; decide

@[simp] theorem applyReset_slot (s : State) (k : SlotNum) : (applyReset s).slot k = none := reset_slot k

/-! placeCommand: only the host's list changes. -/

@[simp] theorem placeCommand_arg (s : State) (w : Word32) : (placeCommand s w).arg = s.arg := rfl
@[simp] theorem placeCommand_res0 (s : State) (w : Word32) : (placeCommand s w).res0 = s.res0 := rfl
@[simp] theorem placeCommand_res1 (s : State) (w : Word32) : (placeCommand s w).res1 = s.res1 := rfl
@[simp] theorem placeCommand_code (s : State) (w : Word32) : (placeCommand s w).code = s.code := rfl
@[simp] theorem placeCommand_sticky (s : State) (w : Word32) : (placeCommand s w).sticky = s.sticky := rfl
@[simp] theorem placeCommand_errcmd (s : State) (w : Word32) : (placeCommand s w).errcmd = s.errcmd := rfl
@[simp] theorem placeCommand_slots (s : State) (w : Word32) : (placeCommand s w).slots = s.slots := rfl
@[simp] theorem placeCommand_buf (s : State) (w : Word32) : (placeCommand s w).buf = s.buf := rfl
@[simp] theorem placeCommand_hostOps (s : State) (w : Word32) : (placeCommand s w).hostOps = writeCmd w :: s.hostOps := rfl
@[simp] theorem placeCommand_readData (s : State) (w : Word32) : (placeCommand s w).readData = s.readData := rfl
@[simp] theorem placeCommand_fresh (s : State) (w : Word32) : (placeCommand s w).fresh = s.fresh := rfl

end Sys2Proof.Machine
end

