-- ==== Sys2Proof/Laws/Ops.lean ====
section
/-! SUPPORT. For each shared operation, once, everything it can do: callers cite these and do not unfold. -/

namespace Sys2Proof.Machine

/-! Completing and raising. -/

/-- complete answers the state with CODE = OK (R305), and nothing else. -/
@[simp] theorem complete_eq (s : State) : complete s = .next { s with code := .ok } := rfl

/-- raiseFor answers the raised state (R304), and nothing else. -/
@[simp] theorem raiseFor_eq (e : ErrorCode) (i : Instr) (s : State) : raiseFor e i s = .next (raise e (encode i) s) := rfl

/-- completeWith answers: the slot's new engine, RES[0] and CODE (R33). -/
@[simp] theorem completeWith_eq (i : Instr) (g : Engine) (r : Word) (s : State) :
    completeWith i g r s = .next { s.setSlot i.slot g with res0 := r, code := .ok } := rfl

/-- configure answers: the slot's new record, RES[0] with E, and CODE (R200, R201). -/
@[simp] theorem configure_eq (i : Instr) (g : Engine) (v : Word) (s : State) :
    configure i g v s = .next { s.setSlot i.slot g with res0 := if i.flagE then v else s.res0, code := .ok } := rfl

/-- On an EMPTY slot a drawing command raises NotConfigured (R231, R302). -/
theorem onEngine_empty {i : Instr} {s : State} {k : Engine → Host.Outcome State Fault Refusal} (h : s.slot i.slot = none) :
    onEngine i s k = .next (raise .notConfigured (encode i) s) := by
  simp [onEngine, h]

/-- On a configured slot a drawing command goes on with the slot's engine (R231). -/
theorem onEngine_some {i : Instr} {s : State} {k : Engine → Host.Outcome State Fault Refusal} {g : Engine}
    (h : s.slot i.slot = some g) : onEngine i s k = k g := by
  simp [onEngine, h]

/-- Everything onEngine can do. -/
theorem onEngine_cases {i : Instr} {s t : State} {k : Engine → Host.Outcome State Fault Refusal} (h : onEngine i s k = .next t) :
    (s.slot i.slot = none ∧ t = raise .notConfigured (encode i) s) ∨ ∃ g, s.slot i.slot = some g ∧ k g = .next t := by
  cases hg : s.slot i.slot with
  | none =>
    rw [onEngine_empty hg] at h
    exact .inl ⟨rfl, (Host.Outcome.next.inj h).symm⟩
  | some g =>
    rw [onEngine_some hg] at h
    exact .inr ⟨g, rfl, h⟩

/-! The left xor-shifts (R130): the unmasked one is the masked one that lets every bit through. -/

theorem xslMasked_allOnes (x : Word32) (k : Nat) : xslMasked x k (BitVec.allOnes 32) = xsl32 x k := by
  rw [xslMasked, BitVec.and_allOnes, xsl32]

theorem xslMasked64_allOnes (x : Word) (k : Nat) : xslMasked64 x k (BitVec.allOnes 64) = xsl64 x k := by
  rw [xslMasked64, BitVec.and_allOnes, xsl64]

/-! Range reduction (R236). -/

/-- One Draw64 is made, whatever the bounds. -/
@[simp] theorem rangeReduce_engine (g : Engine) (lo hi : Int) : (rangeReduce g lo hi).2 = (draw64 g).2 := rfl

/-- The result lies within the bounds, both included. -/
theorem rangeReduce_bounds (g : Engine) {lo hi : Int} (h : lo ≤ hi) :
    lo ≤ (rangeReduce g lo hi).1 ∧ (rangeReduce g lo hi).1 ≤ hi := by
  have h1 := Int.emod_nonneg ((draw64 g).1.toNat : Int) (b := hi - lo + 1) (by omega)
  have h2 := Int.emod_lt_of_pos ((draw64 g).1.toNat : Int) (b := hi - lo + 1) (by omega)
  simp only [rangeReduce]
  omega

/-! SplitMix64's private state (R134). -/

/-- smAfter is the state after that many steps. -/
theorem smAfter_succ (k : Nat) (t : Word) : smAfter (k + 1) t = smAfter k (smNext64 t).2 := by
  simp only [smAfter, smNext64]
  rw [BitVec.add_assoc, BitVec.ofNat_add, BitVec.add_mul, BitVec.add_comm (BitVec.ofNat 64 k * gamma)]
  simp

/-- An expansion has as many words as were asked for. -/
@[simp] theorem smExpand32_length (t : Word) (n : Nat) : (smExpand32 t n).length = n := by
  induction n generalizing t with
  | zero => rfl
  | succ n ih => simp [smExpand32, ih]

/-! The loop of NEXTBYTES (R240). -/

/-- fillBytes keeps the canonical form. -/
theorem wf_fillBytes (n : Nat) (a len : Nat) (g : Engine) (m : Memory) (hm : m.wf = true) :
    (fillBytes n a len g m).2.wf = true := by
  induction n generalizing a len g m with
  | zero => exact hm
  | succ n ih => exact ih _ _ _ _ (wf_memWrite _ m hm _ _)

/-- fillBytes leaves every byte outside [a, a + len) as it was. -/
theorem read_fillBytes_outside (n : Nat) (a len x : Nat) (g : Engine) (m : Memory) (hm : m.wf = true)
    (h : a + len ≤ Config.bufSize) (hx : x < a ∨ a + len ≤ x) : (fillBytes n a len g m).2.read x = m.read x := by
  induction n generalizing a len g m with
  | zero => rfl
  | succ n ih =>
    simp only [fillBytes]
    rw [ih _ _ _ _ (wf_memWrite _ m hm _ _) (by omega) (by omega),
      read_memWrite_outside _ m hm _ _ _ (by omega) (by omega)]

/-! The loop of SHUFFLE (R275). -/

/-- An exchange keeps the canonical form. -/
theorem wf_swapElements (m : Memory) (hm : m.wf = true) (b i j : Nat) : (swapElements m b i j).wf = true :=
  wf_memWrite _ _ (wf_memWrite _ m hm _ _) _ _

/-- An exchange leaves every byte outside the two elements as it was. -/
theorem read_swapElements_outside (m : Memory) (hm : m.wf = true) (b i j x : Nat)
    (hi : b + 8 * i + 8 ≤ Config.bufSize) (hj : b + 8 * j + 8 ≤ Config.bufSize)
    (hxi : x < b + 8 * i ∨ b + 8 * i + 8 ≤ x) (hxj : x < b + 8 * j ∨ b + 8 * j + 8 ≤ x) :
    (swapElements m b i j).read x = m.read x := by
  simp only [swapElements]
  rw [read_memWrite_outside _ _ (wf_memWrite _ m hm _ _) _ _ _ (by omega) (by omega),
    read_memWrite_outside _ m hm _ _ _ (by omega) (by omega)]

/-- The index drawn for element i + 1 is one of 0..i + 1. -/
theorem shuffle_index_le (g : Engine) (i : Nat) : (rangeReduce g 0 ((i : Int) + 1)).1.toNat ≤ i + 1 := by
  have h := rangeReduce_bounds g (lo := 0) (hi := (i : Int) + 1) (by omega)
  omega

/-- shuffleFrom keeps the canonical form. -/
theorem wf_shuffleFrom (b i : Nat) (g : Engine) (m : Memory) (hm : m.wf = true) : (shuffleFrom b i g m).2.wf = true := by
  induction i generalizing g m with
  | zero => exact hm
  | succ i ih => exact ih _ _ (wf_swapElements m hm _ _ _)

/-- shuffleFrom leaves every byte outside the elements 0..i as it was. -/
theorem read_shuffleFrom_outside (b i x : Nat) (g : Engine) (m : Memory) (hm : m.wf = true)
    (h : b + 8 * i + 8 ≤ Config.bufSize) (hx : x < b ∨ b + 8 * i + 8 ≤ x) :
    (shuffleFrom b i g m).2.read x = m.read x := by
  induction i generalizing g m with
  | zero => rfl
  | succ i ih =>
    have hj := shuffle_index_le g i
    simp only [shuffleFrom]
    rw [ih _ _ (wf_swapElements m hm _ _ _) (by omega) (by omega),
      read_swapElements_outside m hm _ _ _ _ (by omega) (by omega) (by omega) (by omega)]

end Sys2Proof.Machine
end

