-- ==== Sys2Proof/Laws/PerInstr.lean ====
section
/-! SUPPORT. A family of facts about every command as syntax: its word has RSV = 0, its own SLOT and OP, and selects the
row of the opcode table that has its mnemonic (spec/30_encoding.md R104, R106, R107). -/

namespace Sys2Proof.Laws.WordSelectsRow

set_option Elab.async false

/-- The word of a command is well placed: RSV is 0, SLOT and OP are the command's, and a row of the opcode table with
the command's mnemonic selects it. -/
def Statement (i : Instr) : Prop :=
  rsvField (encode i) = 0 ∧ slotField (encode i) = i.slot ∧ opField (encode i) = i.op ∧
    (opcodeRows.any fun r => r.selects (encode i) && r.mnemonic == i.mnemonic) = true

theorem cfgSm (s : SlotNum) (e : Bool) : Statement (.cfgSm s e) := by
  revert s e; unfold Statement; decide +kernel
theorem cfgXs (s : SlotNum) (e : Bool) : Statement (.cfgXs s e) := by
  revert s e; unfold Statement; decide +kernel
theorem cfgXss (s : SlotNum) : Statement (.cfgXss s) := by
  revert s; unfold Statement; decide +kernel
theorem cfgMt (s : SlotNum) (e : Bool) : Statement (.cfgMt s e) := by
  revert s e; unfold Statement; decide +kernel
theorem cfgPcg (s : SlotNum) (e d : Bool) : Statement (.cfgPcg s e d) := by
  revert s e d; unfold Statement; decide +kernel
theorem cfgCmwc (s : SlotNum) (e d : Bool) : Statement (.cfgCmwc s e d) := by
  revert s e d; unfold Statement; decide +kernel
theorem cfgCc (s : SlotNum) (e d : Bool) : Statement (.cfgCc s e d) := by
  revert s e d; unfold Statement; decide +kernel
theorem next64 (s : SlotNum) : Statement (.next64 s) := by
  revert s; unfold Statement; decide +kernel
theorem next32 (s : SlotNum) : Statement (.next32 s) := by
  revert s; unfold Statement; decide +kernel
theorem nextDbl (s : SlotNum) : Statement (.nextDbl s) := by
  revert s; unfold Statement; decide +kernel
theorem nextInt (s : SlotNum) : Statement (.nextInt s) := by
  revert s; unfold Statement; decide +kernel
theorem nextBytes (s : SlotNum) : Statement (.nextBytes s) := by
  revert s; unfold Statement; decide +kernel
theorem nextPct (s : SlotNum) : Statement (.nextPct s) := by
  revert s; unfold Statement; decide +kernel
theorem gamble (s : SlotNum) : Statement (.gamble s) := by
  revert s; unfold Statement; decide +kernel
theorem gambleD (s : SlotNum) : Statement (.gambleD s) := by
  revert s; unfold Statement; decide +kernel
theorem nextDRange (s : SlotNum) : Statement (.nextDRange s) := by
  revert s; unfold Statement; decide +kernel
theorem nextBool (s : SlotNum) : Statement (.nextBool s) := by
  revert s; unfold Statement; decide +kernel
theorem nextChar (s : SlotNum) : Statement (.nextChar s) := by
  revert s; unfold Statement; decide +kernel
theorem nextIndex (s : SlotNum) : Statement (.nextIndex s) := by
  revert s; unfold Statement; decide +kernel
theorem shuffle (s : SlotNum) : Statement (.shuffle s) := by
  revert s; unfold Statement; decide +kernel
theorem nextPolar (s : SlotNum) : Statement (.nextPolar s) := by
  revert s; unfold Statement; decide +kernel

end Sys2Proof.Laws.WordSelectsRow
end

