-- ==== Sys2Proof/Laws/Port.lean ====
section
/-! SUPPORT. The laws of the port: which target an offset reaches (spec/20_memory.md R77), and one equation for a step
by the kind of the host's next operation. -/

namespace Sys2Proof.Machine

/-! The port map. -/

@[simp] theorem portTarget_cmd : portTarget 0x000 = .cmd := rfl
@[simp] theorem portTarget_status : portTarget 0x008 = .status := rfl
@[simp] theorem portTarget_errcmd : portTarget 0x010 = .errcmd := rfl
@[simp] theorem portTarget_caps : portTarget 0x018 = .caps := rfl
@[simp] theorem portTarget_res0 : portTarget 0x040 = .res0 := rfl
@[simp] theorem portTarget_res1 : portTarget 0x048 = .res1 := rfl
@[simp] theorem portTarget_arg (i : Fin 4) : portTarget (argOffset i).val = .arg i := by revert i; decide
@[simp] theorem portTarget_slotInfo (k : Fin Config.nslots) : portTarget (slotInfoOffset k).val = .slotInfo k := by
  revert k; decide +kernel
@[simp] theorem portTarget_buf (a : Fin Config.bufSize) : portTarget (bufOffset a).val = .buf a.val := by
  have ha : a.val < 4096 := a.isLt
  show portTarget (0x1000 + a.val) = _
  have hs : ¬(0x080 ≤ 0x1000 + a.val ∧ (0x1000 + a.val) % 8 = 0 ∧ (0x1000 + a.val - 0x080) / 8 < Config.nslots) := by
    show ¬(_ ∧ _ ∧ _ < 16)
    omega
  have hb : 0x1000 ≤ 0x1000 + a.val ∧ 0x1000 + a.val < 0x1000 + Config.bufSize := by
    show _ ∧ _ < 0x1000 + 4096
    omega
  unfold portTarget
  iterate 10 rw [if_neg (by omega)]
  rw [dif_neg hs, if_pos hb, Nat.add_sub_cancel_left]

/-! The step, by the host's next operation. -/

/-- The host reads: the value returned is kept, and nothing else changes. -/
theorem step_read {s : State} {off : Fin Config.portSpan} {rest : List PortOp} (h : s.hostOps = .read off :: rest) :
    step s = .next { s with hostOps := rest, readData := readTarget { s with hostOps := rest } (portTarget off.val) } := by
  simp [step, stepHost, h, perform]

/-- The host writes: what the target does with the value. -/
theorem step_write {s : State} {off : Fin Config.portSpan} {v : Word} {rest : List PortOp}
    (h : s.hostOps = .write off v :: rest) :
    step s = writeTarget (portTarget off.val) v { s with hostOps := rest } := by
  simp [step, stepHost, h, perform]

/-- The platform resets. -/
theorem step_reset {s : State} {rest : List PortOp} (h : s.hostOps = .reset :: rest) :
    step s = .next (applyReset { s with hostOps := rest }) := by
  simp [step, stepHost, h, perform]

/-- The word of a command write is the word the host gave. -/
@[simp] theorem lo32_zext64 (w : Word32) : lo32 (zext64 w) = w := by
  simp only [lo32, zext64]
  apply BitVec.eq_of_toNat_eq
  have := w.isLt
  simp
  omega

/-- Everything a step can do: wait, perform a read, perform a write, or reset. -/
theorem step_cases {s t : State} (h : step s = .next t) :
    (s.hostOps = [] ∧ t = s) ∨
    (∃ off rest, s.hostOps = .read off :: rest ∧
      t = { s with hostOps := rest, readData := readTarget { s with hostOps := rest } (portTarget off.val) }) ∨
    (∃ off v rest, s.hostOps = .write off v :: rest ∧
      writeTarget (portTarget off.val) v { s with hostOps := rest } = .next t) ∨
    (∃ rest, s.hostOps = .reset :: rest ∧ t = applyReset { s with hostOps := rest }) := by
  match ho : s.hostOps with
  | [] =>
    simp [step, stepHost, ho] at h
    exact .inl ⟨rfl, h.symm⟩
  | .read off :: rest =>
    rw [step_read ho] at h
    exact .inr (.inl ⟨off, rest, rfl, (Host.Outcome.next.inj h).symm⟩)
  | .write off v :: rest =>
    rw [step_write ho] at h
    exact .inr (.inr (.inl ⟨off, v, rest, rfl, h⟩))
  | .reset :: rest =>
    rw [step_reset ho] at h
    exact .inr (.inr (.inr ⟨rest, rfl, (Host.Outcome.next.inj h).symm⟩))

end Sys2Proof.Machine
end

