-- ==== Sys2Proof/Tests/Slice0.lean ====
section
/-! SUPPORT. The model's own tests: words written out from the encoding (spec/30_encoding.md R100, R106), the well-formedness
smoke, the vectors of spec/95_test_vectors.md (named in each comment), and for each statement with hypotheses a
witness that meets them. Expected values are the spec's, never the model's. -/

namespace Sys2Proof.Tests
open Sys2Proof.Machine

set_option Elab.async false

/-! States and answers. -/

/-- The state of an answer (reset where there is none). -/
def after (o : Host.Outcome State Fault Refusal) : State :=
  match o with
  | .next s => s
  | .fault _ => State.reset
  | .refused _ => State.reset

/-- Reset, slot k configured with g, and ARG[0], ARG[1] given. -/
def sample (k : SlotNum) (g : Engine) (a b : Word) : State := { State.reset.setSlot k g with arg := #v[a, b, 0, 0] }

/-- SplitMix64 seeded with 42 in slot 0: its draws are x1 = 0xBDD732262FEB6E95 and x2 = 0x28EFE333B266F103 (V-SM-1). -/
def sm42 (a b : Word) : State := sample 0 (.sm 42) a b

/-- Reset with one host operation to do. -/
def asks (op : PortOp) : State := { State.reset with hostOps := [op] }

/-- ChaCha with the pad of the test vectors, all 0. -/
def chacha (seed stream : Word) : ChaCha := ccInit (fun _ => 0) (fun _ => 0) seed stream

/-! Decoding: RSV, D, E, SLOT, OP written out, one word for each constructor. -/

theorem test_decode_cfgSm : decode (0b000000000000000000_0_1_0111_00000001#32) = .ok (.cfgSm 7 true) := by decide
theorem test_decode_cfgXs : decode (0b000000000000000000_0_0_0011_00000010#32) = .ok (.cfgXs 3 false) := by decide
theorem test_decode_cfgXss : decode (0b000000000000000000_0_0_1000_00000011#32) = .ok (.cfgXss 8) := by decide
theorem test_decode_cfgMt : decode (0b000000000000000000_0_1_0101_00000100#32) = .ok (.cfgMt 5 true) := by decide
theorem test_decode_cfgPcg : decode (0b000000000000000000_1_0_0011_00000101#32) = .ok (.cfgPcg 3 false true) := by decide
theorem test_decode_cfgCmwc : decode (0b000000000000000000_1_1_1111_00000110#32) = .ok (.cfgCmwc 15 true true) := by decide
theorem test_decode_cfgCc : decode (0b000000000000000000_0_1_0010_00000111#32) = .ok (.cfgCc 2 true false) := by decide
theorem test_decode_next64 : decode (0b000000000000000000_0_0_1001_00010000#32) = .ok (.next64 9) := by decide
theorem test_decode_next32 : decode (0b000000000000000000_0_0_0001_00010001#32) = .ok (.next32 1) := by decide
theorem test_decode_nextDbl : decode (0b000000000000000000_0_0_0010_00010010#32) = .ok (.nextDbl 2) := by decide
theorem test_decode_nextInt : decode (0b000000000000000000_0_0_0010_00010011#32) = .ok (.nextInt 2) := by decide
theorem test_decode_nextBytes : decode (0b000000000000000000_0_0_0101_00010100#32) = .ok (.nextBytes 5) := by decide
theorem test_decode_nextPct : decode (0b000000000000000000_0_0_0100_00100000#32) = .ok (.nextPct 4) := by decide
theorem test_decode_gamble : decode (0b000000000000000000_0_0_1001_00100001#32) = .ok (.gamble 9) := by decide
theorem test_decode_gambleD : decode (0b000000000000000000_0_0_1110_00100010#32) = .ok (.gambleD 14) := by decide
theorem test_decode_nextDRange : decode (0b000000000000000000_0_0_0010_00100011#32) = .ok (.nextDRange 2) := by decide
theorem test_decode_nextBool : decode (0b000000000000000000_0_0_1111_00100100#32) = .ok (.nextBool 15) := by decide
theorem test_decode_nextChar : decode (0b000000000000000000_0_0_0100_00100101#32) = .ok (.nextChar 4) := by decide
theorem test_decode_nextIndex : decode (0b000000000000000000_0_0_0110_00100110#32) = .ok (.nextIndex 6) := by decide
theorem test_decode_shuffle : decode (0b000000000000000000_0_0_0011_00100111#32) = .ok (.shuffle 3) := by decide
theorem test_decode_nextPolar : decode (0b000000000000000000_0_0_0010_00101000#32) = .ok (.nextPolar 2) := by decide

/-- Section 6 of the vectors, and the boundaries of the reserved OPs (R108). -/
theorem test_decode_refusals :
    decode 0x00000000 = .error .reservedOp ∧ decode 0x00000008 = .error .reservedOp ∧
    decode 0x0000000F = .error .reservedOp ∧ decode 0x00000015 = .error .reservedOp ∧
    decode 0x0000001F = .error .reservedOp ∧ decode 0x00000029 = .error .reservedOp ∧
    decode 0x000000FF = .error .reservedOp ∧ decode 0x00004010 = .error .reservedBits ∧
    decode 0x80000010 = .error .reservedBits ∧ decode 0x00001010 = .error .flagENotAdmitted ∧
    decode 0x00003003 = .error .flagENotAdmitted ∧ decode 0x00002001 = .error .flagDNotAdmitted := by decide

/-- R112's examples. -/
theorem test_encode_examples :
    encode (.next64 0) = 0x00000010 ∧ encode (.cfgPcg 3 false true) = 0x00002305 ∧
    encode (.cfgCmwc 15 true true) = 0x00003F06 ∧ encode (.nextInt 2) = 0x00000213 := by decide

/-- R112's syntax. -/
theorem test_assembly :
    (Instr.next64 0).assembly = "NEXT64 0" ∧ (Instr.cfgPcg 3 false true).assembly = "CFG.PCG 3, D" ∧
    (Instr.cfgCmwc 15 true true).assembly = "CFG.CMWC 15, E, D" := by decide +kernel

/-- A table word goes to the decoder, and the step runs it. -/
theorem test_table_word : decodeTableWord 32 0x10 = some (.next64 0) ∧ decodeTableWord 32 0x08 = none ∧
    step (State.reset.withFetchWord 32 0x10) = exec (.next64 0) State.reset := by
  refine ⟨by decide, by decide, rfl⟩

/-! Well-formedness. -/

/-- R101: on a block of four slots, slot 4 is refused and slot 3 is not. -/
theorem test_illFormed_slot : (Instr.next64 4).illFormedOn 4 = some .slotOutOfRange ∧
    (Instr.next64 3).illFormedOn 4 = none := by decide

/-- 93 I1, I2: programs with words that are no command of this version are refused by name. -/
theorem test_program_refusals :
    programProblem [writeCmd 0x10] = none ∧ programProblem [.reset, writeCmd 0x08] = some .reservedOp ∧
    programProblem [writeCmd 0x4010] = some .reservedBits ∧ programProblem [writeCmd 0x1010] = some .flagENotAdmitted ∧
    programProblem [writeCmd 0x2001] = some .flagDNotAdmitted := by decide

/-! Engines. -/

/-- V-SM-1, V-SM-3 (the add wraps). -/
theorem test_splitMix : (draw64 (.sm 42)).1 = 0xBDD732262FEB6E95 ∧ smExpand64 42 4 =
    [0xBDD732262FEB6E95, 0x28EFE333B266F103, 0x47526757130F9F52, 0x581CE1FF0E4AE394] ∧
    smExpand64 0xFFFFFFFFFFFFFFFF 2 = [0xE4D971771B652C20, 0xE99FF867DBF682C9] := by decide +kernel

/-- R130: the left xor-shifts at both widths, where the bits shifted out are lost. -/
theorem test_left_xor_shift : xsl32 0xC0000001 31 = 0x40000001 ∧ xsl64 0xC000000000000001 63 = 0x4000000000000001 ∧
    xslMasked64 0xFFFFFFFFFFFFFFFF 8 0xFF00 = 0xFFFFFFFFFFFF00FF := by decide

/-- V-XS-2 and V-XS-1. -/
theorem test_xoshiro : xsNext64 ⟨1, 2, 3, 4⟩ = (0x2D00, ⟨7, 0, 0x40002, 0x0000C00000000000⟩) ∧
    (xsNext64 (xsSeed 42)).1 = 0x15780B2E0C2EC716 := by decide +kernel

/-- V-MT-1: the first output of seed 5489, whose draw twists. -/
theorem test_mersenne : (draw32 (.mt (mtInit 5489))).1 = 3499211612 := by decide +kernel

/-- V-PCG-1, V-PCG-3. -/
theorem test_pcg : (pcgInit 42 109).pst = 0x185706B82C2E03F8 ∧ (draw64 (.pcg (pcgInit 42 109))).1 = 0xA15C02B77B47F409 ∧
    (draw32 (.pcg (pcgInit 0 1))).1 = 0xE4C14788 := by decide +kernel

/-- V-CMWC-4 (the correction), V-CMWC-5 (the subtraction wraps), V-CMWC-6 (the carry bound), in a table of one size
that reads the entry given. -/
theorem test_cmwc_corners :
    (cmwcNext32 ⟨1, [0xFFFFFFFF], 2, 0⟩ = (0xFFFFFFFC, ⟨1, [0xFFFFFFFC], 18782, 0⟩)) ∧
    (cmwcNext32 ⟨1, [0], 0xFFFFFFFF, 0⟩ = (0xFFFFFFFF, ⟨1, [0xFFFFFFFF], 0, 0⟩)) ∧
    (cmwcNext32 ⟨1, [0xFFFFFFFF], 809430659, 0⟩).2.c = 18782 := by decide +kernel

/-- V-CMWC-1. -/
theorem test_cmwc_seed : (cmwcInit 42 16).c = 444847954 ∧ (cmwcInit 42 16).q.getD 15 0 = 0x341452C5 ∧
    (draw64 (.cmwc (cmwcInit 42 16))).1 = 0xD32AB2509020C621 := by decide +kernel

/-- V-CC-1, V-CC-2. -/
theorem test_chacha : (draw32 (.cc (chacha 0 0))).1 = 0xADE0B876 ∧ (draw32 (.cc (chacha 42 7))).1 = 0x333E87E7 := by
  decide +kernel

/-! Binary64. -/

/-- V-DBL-1. -/
theorem test_unit_double : toUnitDouble 0 = 0 ∧ toUnitDouble 0x7FF = 0 ∧ toUnitDouble 0x800 = 0x3CA0000000000000 ∧
    toUnitDouble 0x8000000000000000 = 0x3FE0000000000000 ∧ toUnitDouble 0xFFFFFFFFFFFFFFFF = 0x3FEFFFFFFFFFFFFF := by
  decide +kernel

/-- V-DR-5 (-0.0 + +0.0), V-DR-6 (the result rounds to max), and the infinities of R266 (inf - inf, inf * 0). -/
theorem test_double_range_corners :
    doubleInRange (freeNaN 0) 0x8000000000000000 0x8000000000000000 (toUnitDouble 5) = 0 ∧
    doubleInRange (freeNaN 0) 0x3FF0000000000000 0x3FF0000000000001 0x3FEFFFFFFFFFFFFF = 0x3FF0000000000001 ∧
    doubleInRange (freeNaN 0) 0xFFEFFFFFFFFFFFFF 0x7FEFFFFFFFFFFFFF 0x3FE0000000000000 = 0x7FF0000000000000 ∧
    F64.isNaN (doubleInRange 0x7FF0000000000001 0xFFEFFFFFFFFFFFFF 0x7FEFFFFFFFFFFFFF 0) = true ∧
    F64.isNaN (doubleInRange 0xFFF8000000000000 0x7FF0000000000000 0x7FF0000000000000 0) = true := by decide +kernel

/-- R23: the root is exact, rounded (sqrt 2 is 0x3FF6A09E667F3BCD), or a NaN for a negative operand. -/
theorem test_sqrt : fsqrt 0x7FF8000000000000 0x3FD0000000000000 = 0x3FE0000000000000 ∧
    fsqrt 0x7FF8000000000000 0x4000000000000000 = 0x3FF6A09E667F3BCD ∧
    F64.isNaN (fsqrt 0x7FF8000000000000 0xBFF0000000000000) = true ∧
    fsqrt 0x7FF8000000000000 0x8000000000000000 = 0x8000000000000000 := by decide +kernel

/-! Configuration. -/

/-- V-CFG-1: RES[0] is not written, SLOTINFO[0] is 1. -/
theorem test_cfgSm : (after (exec (.cfgSm 0 false) (sm42 42 0))).slot 0 = some (.sm 42) ∧
    slotInfoReg (after (exec (.cfgSm 0 false) (sm42 42 0))) 0 = 1 := by decide
/-- V-CFG-12: with E the entropy value is the seed and is written to RES[0]. -/
theorem test_cfgSm_entropy : exec (.cfgSm 7 true) State.reset =
    .next { State.reset.setSlot 7 (.sm (Config.entropy 0)) with res0 := Config.entropy 0, fresh := 1 } := rfl
/-- V-XS-1. -/
theorem test_cfgXs : (after (exec (.cfgXs 3 false) (sm42 42 0))).slot 3 = some (.xs ⟨0xBDD732262FEB6E95,
    0x28EFE333B266F103, 0x47526757130F9F52, 0x581CE1FF0E4AE394⟩) := by decide +kernel
/-- V-CFG-2: the all-zero state is refused, and the slot stays EMPTY. -/
theorem test_cfgXss_zero : statusReg (after (exec (.cfgXss 8) State.reset)) = 0x103 ∧
    errcmdReg (after (exec (.cfgXss 8) State.reset)) = 0x803 ∧ (after (exec (.cfgXss 8) State.reset)).slot 8 = none := by
  decide
/-- P7: ARG = (1, 2, 3, 4) is the state. -/
theorem test_cfgXss : (after (exec (.cfgXss 8) { State.reset with arg := #v[1, 2, 3, 4] })).slot 8 =
    some (.xs ⟨1, 2, 3, 4⟩) := by decide
/-- V-MT-5: only the low 32 bits of the seed count, and the block is exhausted. -/
theorem test_cfgMt : ∃ m, (after (exec (.cfgMt 5 false) (sm42 0x0000000100001571 0))).slot 5 = some (.mt m) ∧
    m.mti = 624 ∧ m.mt[0] = 5489 ∧ m.mt[1] = 1301868182 := ⟨mtInit 5489, rfl, rfl, rfl, by decide +kernel⟩
/-- V-CFG-3, V-CFG-11: an even increment raises, and the slot keeps its engine. -/
theorem test_cfgPcg_even : (after (exec (.cfgPcg 0 false false) (sm42 42 54))).code = .configurationError ∧
    (after (exec (.cfgPcg 0 false false) (sm42 42 54))).slot 0 = some (.sm 42) := by decide
/-- V-CFG-14, V-PCG-2: D overrides ARG[1]; then the first output is 0xC2F57BD6. -/
theorem test_cfgPcg_default : (after (exec (.next32 1) (after (exec (.cfgPcg 1 false true) (sm42 42 7))))).res0 =
    0xC2F57BD6 := by decide +kernel
/-- V-CFG-5, V-CFG-6, V-CFG-7, V-CFG-8: cycles 10, 8, 0 and 2^17 raise, and so does 2^63. -/
theorem test_cfgCmwc_errors :
    (after (exec (.cfgCmwc 0 false false) (sm42 42 10))).code = .configurationError ∧
    (after (exec (.cfgCmwc 0 false false) (sm42 42 8))).code = .configurationError ∧
    (after (exec (.cfgCmwc 0 false false) (sm42 42 0))).code = .configurationError ∧
    (after (exec (.cfgCmwc 0 false false) (sm42 42 131072))).code = .configurationError ∧
    (after (exec (.cfgCmwc 0 false false) (sm42 42 0x8000000000000000))).code = .configurationError := by decide +kernel
/-- V-CFG-9, V-CFG-10: SLOTINFO of cycle 16 and of the default cycle. -/
theorem test_cfgCmwc_info : slotInfoReg (after (exec (.cfgCmwc 0 false false) (sm42 42 16))) 0 = 0x0405 ∧
    slotInfoReg (after (exec (.cfgCmwc 0 false true) (sm42 42 0))) 0 = 0x0C05 := by decide +kernel
/-- R182: stream and seed words, counter 0, the block consumed. -/
theorem test_cfgCc : ∃ k, (after (exec (.cfgCc 2 false false) (sm42 0x0000000200000001 0x0000000400000003))).slot 2 =
    some (.cc k) ∧ k.inp[4] = 1 ∧ k.inp[5] = 2 ∧ k.inp[12] = 0 ∧ k.inp[13] = 0 ∧ k.inp[14] = 3 ∧ k.inp[15] = 4 ∧
    k.pos = 16 := ⟨_, rfl, rfl, rfl, rfl, rfl, rfl, rfl, rfl⟩

/-! Contract commands. -/

/-- V-N64-1. -/
theorem test_next64 : (after (exec (.next64 0) (sm42 0 0))).res0 = 0xBDD732262FEB6E95 ∧
    (after (exec (.next64 1) (sample 1 (.pcg (pcgInit 42 109)) 0 0))).res0 = 0xA15C02B77B47F409 := by decide +kernel
/-- V-N32-1. -/
theorem test_next32 : (after (exec (.next32 0) (sm42 0 0))).res0 = 0xBDD73226 ∧
    (after (exec (.next32 0) (sm42 0 0))).slot 0 = some (.sm 0x9E3779B97F4A7C3F) := by decide +kernel
/-- V-DBL-2. -/
theorem test_nextDbl : (after (exec (.nextDbl 0) (sm42 0 0))).res0 = 0x3FE7BAE644C5FD6D := by decide +kernel
/-- V-INT-1: -3..3, and the full range. -/
theorem test_nextInt : (after (exec (.nextInt 0) (sm42 0xFFFFFFFFFFFFFFFD 3))).res0 = 2 ∧
    (after (exec (.nextInt 0) (sm42 0x8000000000000000 0x7FFFFFFFFFFFFFFF))).res0 = 0x3DD732262FEB6E95 := by decide +kernel
/-- V-INT-1: the comparison is signed; no draw is made. -/
theorem test_nextInt_error : (after (exec (.nextInt 0) (sm42 0 0xFFFFFFFFFFFFFFFF))).code = .invalidArgument ∧
    (after (exec (.nextInt 0) (sm42 0 0xFFFFFFFFFFFFFFFF))).slot 0 = some (.sm 42) := by decide
/-- V-BYTES-1. -/
theorem test_nextBytes : memRead (after (exec (.nextBytes 0) (sm42 0 11))).buf 0 11 = 0x66F103BDD732262FEB6E95 ∧
    (after (exec (.nextBytes 0) (sm42 0 11))).buf.cells.length = 11 := by decide +kernel
/-- V-BYTES-2. -/
theorem test_nextBytes_bounds : (after (exec (.nextBytes 0) (sm42 4089 7))).code = .ok ∧
    (after (exec (.nextBytes 0) (sm42 4090 7))).code = .bufferRange ∧
    (after (exec (.nextBytes 0) (sm42 4096 0))).code = .ok ∧
    (after (exec (.nextBytes 0) (sm42 4097 0))).code = .bufferRange ∧
    (after (exec (.nextBytes 0) (sm42 0xFFFFFFFFFFFFFFFF 2))).code = .bufferRange := by decide +kernel

/-! Facade commands. -/

/-- V-PCT-1. -/
theorem test_nextPct : (after (exec (.nextPct 0) (sm42 0 0))).res0 = 14 := by decide +kernel
/-- V-GAM-1, V-GAM-2, V-GAM-3. -/
theorem test_gamble : (after (exec (.gamble 0) (sm42 14 0))).res0 = 1 ∧ (after (exec (.gamble 0) (sm42 13 0))).res0 = 0 ∧
    (after (exec (.gamble 0) (sm42 0xFFFFFFFFFFFFFFFB 0))).res0 = 0 := by decide +kernel
/-- V-GAMD-1, V-GAMD-2 (0.7 is 0x3FE6666666666666), V-GAMD-3. -/
theorem test_gambleD : (after (exec (.gambleD 0) (sm42 0x3FE8000000000000 0))).res0 = 1 ∧
    (after (exec (.gambleD 0) (sm42 0x3FE6666666666666 0))).res0 = 0 ∧
    (after (exec (.gambleD 0) (sm42 0x7FF8000000000000 0))).res0 = 0 := by decide +kernel
/-- V-DR-1, V-DR-2. -/
theorem test_nextDRange :
    (after (exec (.nextDRange 0) (sm42 0x4024000000000000 0x4034000000000000))).res0 = 0x40316A67F57DDF32 ∧
    (after (exec (.nextDRange 0) (sm42 0xBFF0000000000000 0x3FF0000000000000))).res0 = 0x3FDEEB991317F5B4 := by
  decide +kernel
/-- V-DR-3. -/
theorem test_nextDRange_error : (after (exec (.nextDRange 0) (sm42 0x4000000000000000 0x3FF0000000000000))).code =
    .invalidArgument := by decide +kernel
/-- V-BOOL-1. -/
theorem test_nextBool : (after (exec (.nextBool 0) (sm42 0 0))).res0 = 1 := by decide +kernel
/-- V-CHR-2 and V-CHR-1, for the range of the vectors. -/
theorem test_nextChar : 0x20 + (33 : Nat) % (0x7E - 0x20 + 1) = 0x41 ∧
    (rangeReduce (.sm 42) 0x20 0x7E).1 = 0x3C := by decide +kernel
/-- V-IDX-1, V-IDX-2. -/
theorem test_nextIndex : (after (exec (.nextIndex 0) (sm42 7 0))).res0 = 5 ∧
    (after (exec (.nextIndex 0) (sm42 1 0))).res0 = 0 := by decide +kernel
/-- V-IDX-3. -/
theorem test_nextIndex_error : (after (exec (.nextIndex 0) (sm42 0 0))).code = .invalidArgument := by decide
/-- V-SHUF-3: elements 1 to 5 at 0x100 become 1, 2, 4, 5, 3. -/
theorem test_shuffle :
    let m := (List.range 5).foldl (fun m k => memWrite m (0x100 + 8 * k) 8 (BitVec.ofNat 64 (k + 1))) State.reset.buf
    let t := after (exec (.shuffle 3) { sample 3 (.xs (xsSeed 42)) 0x100 5 with buf := m })
    (List.range 5).map (readElement t.buf 0x100) = [1, 2, 4, 5, 3] := by decide +kernel
/-- V-SHUF-2. -/
theorem test_shuffle_errors : (after (exec (.shuffle 0) (sm42 4 0))).code = .misaligned ∧
    (after (exec (.shuffle 0) (sm42 4088 1))).code = .ok ∧ (after (exec (.shuffle 0) (sm42 4088 2))).code = .bufferRange ∧
    (after (exec (.shuffle 0) (sm42 0 0x2000000000000000))).code = .bufferRange ∧
    (after (exec (.shuffle 0) (sm42 4 0x2000000000000000))).code = .misaligned := by decide +kernel
/-- V-POLAR-1. -/
theorem test_nextPolar : (after (exec (.nextPolar 0) (sm42 0x3FF0000000000000 0))).res0 = 0x4012A33703ACF0AA ∧
    (after (exec (.nextPolar 0) (sm42 0x3FF0000000000000 0))).res1 = 0x3FD997C3BC1C927D := by decide +kernel

/-! The port and the step. -/

/-- V-RST-1: CAPS. -/
theorem test_caps : (after (step (asks readCaps))).readData = 0x0000000001100C10 := by decide
/-- R306: NEXT64 with RSV bit 14 on an EMPTY slot reports IllegalCommand, not NotConfigured. -/
theorem test_illegal_before_empty : statusReg (after (step (asks (writeCmd 0x00004010)))) = 0x101 := by decide
/-- R77: CMD ignores bits 63:32 of the value written. -/
theorem test_cmd_low_half : (after (step (asks (.write 0x000 0xFFFFFFFF00000001)))).slot 0 = some (.sm 0) := by decide
/-- A byte written to BUF is read back, at the last address. -/
theorem test_buf_byte : (after (step { after (step (asks (writeBuf 4095 0xA5))) with hostOps := [readBuf 4095] })).readData =
    0xA5 := by decide +kernel
/-- R114: create(seed) of the registry name cmwc is a write of ARG[0] and CFG.CMWC with D. -/
theorem test_createNamed : createNamed .cmwc 4 (some 42) = some [writeArg 0 42, writeCmd 0x00002406] ∧
    createNamed .splitmix 7 none = some [writeCmd 0x00001701] ∧ createNamed .melg 0 none = none := by decide +kernel

/-! Witnesses: a state and operands that meet the hypotheses of each statement, for each of its clauses. -/

theorem witness_decodeOfEncode : (Instr.cfgPcg 15 true true).WellFormed := by decide
theorem witness_encodeOfDecode : decode 0x00003F06 = .ok (.cfgCmwc 15 true true) := by decide
theorem witness_tableRows : (⟨"CFG.CC", 0x00000007, 0xFFFFC0FF⟩ : OpcodeRow) ∈ opcodeRows ∧
    (0x00003F07#32 &&& 0xFFFFC0FF#32) = 0x00000007#32 := by decide
/-- Every branch that the decided NSLOTS leaves reachable, at the boundaries of the reserved OPs. -/
theorem witness_decodeChecks :
    (0x00004010#32).extractLsb' 14 18 ≠ 0 ∧ (0x00000029#32).extractLsb' 0 8 ∉ definedOps ∧
    (0x0000000F#32).extractLsb' 0 8 ∉ definedOps ∧ ((0x00001003#32).getLsbD 12 = true ∧ (0x00001003#32).extractLsb' 0 8 ∉ opsWithE) ∧
    ((0x00002004#32).getLsbD 13 = true ∧ (0x00002004#32).extractLsb' 0 8 ∉ opsWithD) ∧
    decode 0x00000F28 = .ok (.nextPolar 15) := by decide
theorem witness_stepRuns : (State.reset.withFetchWord 32 0x00000010).hostOps = .write 0x000 0x10 :: [] ∧
    decode (lo32 0x10) = .ok (.next64 0) := by decide
/-- One word for each check of R301 that a 32-bit word can fail. -/
theorem witness_illegalWord : IllegalWord 0x80000010 ∧ IllegalWord 0x00000008 ∧ IllegalWord 0x00001010 ∧
    IllegalWord 0x00002001 := by unfold IllegalWord; decide
/-- R300: every code, with STICKY and without. -/
theorem witness_statusCodes (e : ErrorCode) (b : Bool) :
    { asks readStatus with code := e, sticky := b }.hostOps = readStatus :: [] ∧
    { asks readStatus with code := e, sticky := b }.code = e := ⟨rfl, rfl⟩
/-- R38, R39: an EMPTY slot, and one with any engine; the least and the greatest CMWC table size. -/
theorem witness_slotInfo (g : Engine) :
    { sample 15 g 0 0 with hostOps := [readSlotInfo 15] }.hostOps = readSlotInfo 15 :: [] ∧
    { sample 15 g 0 0 with hostOps := [readSlotInfo 15] }.slots[15] = some g ∧
    (asks (readSlotInfo 15)).slots[15] = none ∧ (16 : Nat) = 2 ^ 4 ∧ 65536 = 2 ^ 16 ∧ 16 < 32 :=
  ⟨rfl, rfl, rfl, by decide, by decide, by decide⟩
/-- R300, R39, R38: the numbers as the host reads them, for a table of 65536 words too. -/
theorem test_port_numbers :
    (after (step { asks readStatus with code := .misaligned, sticky := true })).readData = 0x106 ∧
    (after (step { sample 15 (.cmwc ⟨65536, [], 0, 0⟩) 0 0 with hostOps := [readSlotInfo 15] })).readData = 0x1005 := by
  decide +kernel

/-- The first and the last byte of a reserved range, a register's second byte, and a read-only register. -/
theorem witness_reserved : ∀ off ∈ [0x009, 0x050, 0x07F, 0x100, 0xFFF, 0x2000, 0x10FFF],
    ¬(off % 8 = 0 ∧ (off ≤ 0x048 ∨ (0x080 ≤ off ∧ off < 0x100))) ∧ ¬(0x1000 ≤ off ∧ off < 0x1000 + Config.bufSize) ∧
    ¬(off % 8 = 0 ∧ (off = 0x000 ∨ (0x020 ≤ off ∧ off ≤ 0x038))) := by decide
theorem witness_readOnly : ¬((0x0F8 : Nat) % 8 = 0 ∧ ((0x0F8 : Nat) = 0x000 ∨ (0x020 ≤ 0x0F8 ∧ (0x0F8 : Nat) ≤ 0x038))) ∧
    ¬(0x1000 ≤ (0x0F8 : Nat) ∧ 0x0F8 < 0x1000 + Config.bufSize) := by decide
theorem witness_hostWrites (op : PortOp) : (asks op).buf.wf = true ∧ (asks op).hostOps = op :: [] := ⟨rfl, rfl⟩
theorem witness_waits : State.reset.hostOps = [] := rfl
theorem witness_emptySlot : 0x10 ≤ (Instr.next64 3).op.toNat ∧ State.reset.slot (Instr.next64 3).slot = none ∧
    (Instr.cfgCc 0 false false).op.toNat < 0x10 ∧ ∃ t, exec (.cfgSm 0 false) State.reset = .next t :=
  ⟨by decide, by decide, by decide, _, rfl⟩
theorem witness_raising : (∃ t, runWord 0x310 State.reset = .next t ∧ t.code ≠ .ok) ∧
    ∃ t, runWord 0 State.reset = .next t ∧ t.code ≠ .ok := ⟨⟨_, rfl, by decide⟩, _, rfl, by decide⟩
theorem witness_success : ∃ t, runWord 0x01 State.reset = .next t ∧ t.code = .ok := ⟨_, rfl, rfl⟩
theorem witness_answers : ∃ t, exec (.next64 0) (sm42 0 0) = .next t := ⟨_, rfl⟩
/-- The frame's clauses: another slot, a command other than NEXTPOLAR, one that writes no RES, one that stores nothing. -/
theorem witness_frame : (3 : SlotNum) ≠ (Instr.next64 0).slot ∧ (∀ k, Instr.next64 0 ≠ .nextPolar k) ∧
    ¬WritesRes0 (.shuffle 0) ∧ ¬WritesRes0 (.nextBytes 0) ∧ ¬WritesRes0 (.cfgCc 0 false true) ∧
    (∀ k, Instr.next64 0 ≠ .nextBytes k) ∧ (∀ k, Instr.next64 0 ≠ .shuffle k) := by
  unfold WritesRes0; decide
theorem witness_independent : (3 : SlotNum) ≠ (Instr.next64 0).slot ∧ ∃ t, exec (.next64 0) (sm42 0 0) = .next t :=
  ⟨by decide, _, rfl⟩
theorem witness_sameSlot : (sample 1 (.sm 42) 0 16).arg = (sample 2 (.sm 42) 0 16).arg ∧
    (sample 1 (.sm 42) 0 16).slot 1 = (sample 2 (.sm 42) 0 16).slot 2 ∧ (sample 1 (.sm 42) 0 16).buf.wf = true := by decide
theorem witness_cfgXss : State.reset.arg = #v[0, 0, 0, 0] ∧ (sm42 0 1).arg ≠ #v[0, 0, 0, 0] := by decide
theorem witness_cfgPcg : (sm42 42 0).arg[1].toNat % 2 = 0 ∧ (sm42 42 1).arg[1].toNat % 2 = 1 ∧
    (0x14057B7EF767814F#64).toNat % 2 = 1 := by decide
/-- Below 16, no power of two, above 65536; and the least and the greatest legal cycle. -/
theorem witness_cfgCmwc : (sm42 42 15).arg[1].toNat < 16 ∧ (17#64 &&& (17#64 - 1)) ≠ 0 ∧ 65536 < (sm42 42 0x20000).arg[1].toNat ∧
    (16 ≤ (16#64).toNat ∧ 16#64 &&& (16#64 - 1) = 0 ∧ (16#64).toNat ≤ 65536) ∧
    (16 ≤ (65536#64).toNat ∧ 65536#64 &&& (65536#64 - 1) = 0 ∧ (65536#64).toNat ≤ 65536) := by decide
/-- An EMPTY slot and a configured one, for every drawing command. -/
theorem witness_slots : (∀ k, State.reset.slot k = none) ∧ (sm42 0 0).slot 0 = some (.sm 42) := by decide
theorem witness_nextInt : (sm42 0 0xFFFFFFFFFFFFFFFF).arg[1].toInt < (sm42 0 0xFFFFFFFFFFFFFFFF).arg[0].toInt ∧
    (sm42 5 5).arg[0].toInt ≤ (sm42 5 5).arg[1].toInt := by decide
theorem witness_nextBytes : 4096 < (sm42 4097 0).arg[0].toNat + (sm42 4097 0).arg[1].toNat ∧
    (sm42 4096 0).arg[0].toNat + (sm42 4096 0).arg[1].toNat ≤ 4096 ∧ (sm42 4096 0).buf.wf = true := by decide
theorem witness_eightBytes : (sm42 4088 8).buf.wf = true ∧ (sm42 4088 8).slot 0 = some (.sm 42) ∧ (sm42 4088 8).arg[1] = 8 ∧
    (sm42 4088 8).arg[0].toNat + 8 ≤ 4096 := by decide
theorem witness_nextDRange : flt 0x3FF0000000000000 0x4000000000000000 = true ∧
    flt 0x4000000000000000 0x4000000000000000 = false ∧ flt 0x3FF0000000000000 0x7FF8000000000000 = false ∧
    F64.isNaN 0x7FF8000000000000 = true := by decide +kernel
theorem witness_nextIndex : (sm42 0 0).arg[0] = 0 ∧ (sm42 1 0).arg[0] ≠ 0 := by decide
theorem witness_shuffle : (sm42 4 0).arg[0].toNat % 8 ≠ 0 ∧
    ((sm42 4088 2).arg[0].toNat % 8 = 0 ∧ 4096 < (sm42 4088 2).arg[0].toNat + 8 * (sm42 4088 2).arg[1].toNat) ∧
    ((sm42 4096 0).arg[0].toNat % 8 = 0 ∧ (sm42 4096 0).arg[0].toNat + 8 * (sm42 4096 0).arg[1].toNat ≤ 4096 ∧
      (sm42 4096 0).buf.wf = true) := by decide
theorem witness_shufflePermutes : (sm42 8 2).buf.wf = true ∧ ∃ t, exec (.shuffle 0) (sm42 8 2) = .next t ∧ t.code = .ok :=
  ⟨rfl, _, rfl, by decide +kernel⟩
theorem witness_splitMix : (5 : Nat) < 2 ^ 64 ∧ (smNext64 (smAfter 5 0)).1 = (smNext64 (smAfter 5 0)).1 := ⟨by decide, rfl⟩
theorem witness_xoshiro : EngineOk (.xs ⟨0, 0, 0, 1⟩) := by unfold EngineOk; decide
theorem witness_mtTwist : ∃ new, new = mtTwist (mtInit 5489).mt := ⟨_, rfl⟩
theorem witness_mtDraw : (mtInit 5489).mti.val = 624 ∧ (⟨(mtInit 5489).mt, 623⟩ : Mersenne).mti.val < 624 := ⟨rfl, by decide⟩
theorem witness_cmwcDraw : CmwcSize (cmwcInit 42 16).n ∧ (cmwcInit 42 16).q.length = (cmwcInit 42 16).n ∧
    (cmwcInit 42 16).ci < (cmwcInit 42 16).n := ⟨⟨4, by decide, by decide, rfl⟩, by decide +kernel, by decide⟩
theorem witness_quarterRound : (0 : Fin 16) ≠ 4 ∧ (0 : Fin 16) ≠ 8 ∧ (0 : Fin 16) ≠ 12 ∧ (4 : Fin 16) ≠ 8 ∧ (4 : Fin 16) ≠ 12 ∧
    (8 : Fin 16) ≠ 12 := by decide
theorem witness_chacha : (chacha 0 0).pos.val = 16 ∧ (⟨(chacha 0 0).inp, (chacha 0 0).blk, 15⟩ : ChaCha).pos.val < 16 :=
  ⟨rfl, by decide⟩
theorem witness_rotations : (63 : Nat) < 64 ∧ (0 : Nat) < 32 := by decide
theorem witness_lessThan : F64.isFinite 0x0000000000000000 = true ∧ F64.isFinite 0xFFEFFFFFFFFFFFFF = true ∧
    F64.isNaN 0x7FF0000000000001 = true ∧ (F64.isNaN plusInfinity = false ∧ plusInfinity ≠ minusInfinity) ∧
    F64.isNaN minusInfinity = false := by decide +kernel
/-- R23: comparisons with an infinity, and of the two. -/
theorem test_lessThan_infinities : flt minusInfinity plusInfinity = true ∧ flt plusInfinity plusInfinity = false ∧
    flt 0x7FEFFFFFFFFFFFFF plusInfinity = true ∧ flt 0xFFEFFFFFFFFFFFFF minusInfinity = false := by decide +kernel
/-- Operands of every clause: finite ones whose sum is rounded, of exact zero sum and zero difference; the greatest, whose
sum overflows; NaNs, infinities of both signs, zeros, and roots. -/
theorem witness_arithmetic : (F64.isFinite 0x3FF0000000000001 = true ∧ F64.isFinite 0x4000000000000000 = true) ∧
    F64.units 0x8000000000000000 + F64.units 0x8000000000000000 = 0 ∧
    F64.units 0x8000000000000000 - F64.units 0x0000000000000000 = 0 ∧
    (F64.isFinite 0x7FEFFFFFFFFFFFFF = true ∧
      (2 ^ 54 - 1) * 2 ^ 2044 ≤ F64.units 0x7FEFFFFFFFFFFFFF + F64.units 0x7FEFFFFFFFFFFFFF) ∧
    F64.isNaN 0x7FF8000000000000 = true ∧ (F64.isInf plusInfinity = true ∧ F64.isNaN plusInfinity = false) ∧
    F64.isInf minusInfinity = true ∧ (F64.isZero 0x8000000000000000 = true ∧ F64.isNaN 0x8000000000000000 = false) ∧
    (F64.isNaN 0xBFF0000000000000 = false ∧ F64.isZero 0xBFF0000000000000 = false ∧ F64.sign 0xBFF0000000000000 = true) ∧
    (F64.isFinite 0x0000000000000001 = true ∧ F64.isZero 0x0000000000000001 = false ∧
      F64.sign 0x0000000000000001 = false) := by decide +kernel
/-- R23: a sum overflows from half a unit past the greatest finite value on (2^970 is half a unit there), not below. -/
theorem test_overflow : fadd 0 0x7FEFFFFFFFFFFFFF 0x7C90000000000000 = 0x7FF0000000000000 ∧
    fadd 0 0x7FEFFFFFFFFFFFFF 0x7C8FFFFFFFFFFFFF = 0x7FEFFFFFFFFFFFFF ∧
    fmul 0 0xFFEFFFFFFFFFFFFF 0x4000000000000000 = 0xFFF0000000000000 := by decide +kernel
/-- A state with a PCG32 engine that meets the invariant, and a step from it. -/
theorem witness_invariant : Inv (sample 1 (.pcg (pcgInit 42 109)) 0 0) ∧
    ∃ t, step ((sample 1 (.pcg (pcgInit 42 109)) 0 0).withFetchWord 32 0x110) = .next t := by
  refine ⟨⟨?_, rfl, fun _ => ⟨rfl, rfl⟩⟩, _, rfl⟩
  intro k g h
  by_cases hk : k = 1
  · subst hk
    have hg : g = .pcg (pcgInit 42 109) := Option.some.inj (h.symm.trans rfl)
    subst hg
    unfold EngineOk
    decide +kernel
  · have hn : (sample 1 (.pcg (pcgInit 42 109)) 0 0).slot k = none :=
      (setSlot_slot_other State.reset k 1 _ hk).trans (reset_slot k)
    rw [hn] at h
    cases h

end Sys2Proof.Tests
end

section
/-! PROOFS. Rotations (spec/00_scope.md R22). -/

namespace Sys2Proof.Machine

theorem rotl64_eq_rotateLeft (x : Word) {k : Nat} (hk : k < 64) : rotl64 x k = x.rotateLeft k := by
  rw [rotl64, BitVec.rotateLeft_def, Nat.mod_eq_of_lt hk]

theorem rotl32_eq_rotateLeft (x : Word32) {k : Nat} (hk : k < 32) : rotl32 x k = x.rotateLeft k := by
  rw [rotl32, BitVec.rotateLeft_def, Nat.mod_eq_of_lt hk]

/-- The left amount (-k) & 31 is 32 - k except at k = 0, where both sides are x. -/
theorem rotr32_eq_rotateRight (x : Word32) {k : Nat} (hk : k < 32) : rotr32 x k = x.rotateRight k := by
  rw [rotr32, BitVec.rotateRight_def, Nat.mod_eq_of_lt hk]
  rcases Nat.eq_zero_or_pos k with rfl | hpos
  · simp
  · rw [Nat.mod_eq_of_lt (by omega)]

/-- Settles O54: a rotation is the or of two shifts, for both widths. -/
theorem rotationsRotate : Obligations.RotationsRotate :=
  ⟨fun x _ hk => rotl64_eq_rotateLeft x hk, fun x _ hk => ⟨rotl32_eq_rotateLeft x hk, rotr32_eq_rotateRight x hk⟩⟩

end Sys2Proof.Machine
end

section
/-! PROOFS. The fields of a binary64 pattern (spec/00_scope.md R23), through its sign bit and its low 63 bits: the low
bits order the magnitudes, and every class is a range of them. -/

namespace Sys2Proof.Machine

/-- The exponent and fraction fields together, bits 62:0. -/
def F64.low (a : F64) : Nat := (a.extractLsb' 0 63).toNat

/-- The magnitude that low bits stand for, in units of 2^-1074 (F64.magnitude_eq), continued past the infinities as
if the exponent field went on. -/
def unitsOfLow (n : Nat) : Nat := if n / 2 ^ 52 = 0 then n % 2 ^ 52 else (2 ^ 52 + n % 2 ^ 52) * 2 ^ (n / 2 ^ 52 - 1)

/-- An integer from its sign and its magnitude. -/
def signed (s : Bool) (n : Nat) : Int := if s then -(n : Int) else (n : Int)

theorem F64.low_eq_mod (a : F64) : a.low = a.toNat % 2 ^ 63 := by
  simp [F64.low, BitVec.extractLsb'_toNat]

theorem F64.low_lt (a : F64) : a.low < 2 ^ 63 := (a.extractLsb' 0 63).isLt

theorem F64.sign_eq_decide (a : F64) : a.sign = decide (2 ^ 63 ≤ a.toNat) := by
  have h := a.isLt
  rw [F64.sign, BitVec.getLsbD, Nat.testBit_eq_decide_div_mod_eq, decide_eq_decide]
  omega

theorem F64.exponent_eq (a : F64) : a.exponent = a.low / 2 ^ 52 := by
  rw [F64.exponent, BitVec.extractLsb'_toNat, F64.low_eq_mod, Nat.shiftRight_eq_div_pow]
  omega

theorem F64.fraction_eq (a : F64) : a.fraction = a.low % 2 ^ 52 := by
  rw [F64.fraction, BitVec.extractLsb'_toNat, F64.low_eq_mod, Nat.shiftRight_eq_div_pow]
  omega

/-- A pattern is its sign and its low bits. -/
theorem F64.eq_of_sign_of_low {a b : F64} (hs : a.sign = b.sign) (hl : a.low = b.low) : a = b := by
  have ha := a.isLt
  have hb := b.isLt
  rw [F64.sign_eq_decide, F64.sign_eq_decide, decide_eq_decide] at hs
  rw [F64.low_eq_mod, F64.low_eq_mod] at hl
  apply BitVec.eq_of_toNat_eq
  omega

theorem F64.toNat_ofSignMagnitude (s : Bool) {n : Nat} (hn : n < 2 ^ 63) :
    (F64.ofSignMagnitude s n).toNat = (if s then 2 ^ 63 else 0) + n := by
  rw [F64.ofSignMagnitude, BitVec.toNat_append, BitVec.toNat_ofNat, Nat.mod_eq_of_lt hn, ← Nat.shiftLeft_add_eq_or_of_lt hn,
    Nat.shiftLeft_eq]
  cases s <;> simp

@[simp] theorem F64.sign_ofSignMagnitude (s : Bool) {n : Nat} (hn : n < 2 ^ 63) : (F64.ofSignMagnitude s n).sign = s := by
  rw [F64.sign_eq_decide, F64.toNat_ofSignMagnitude s hn]
  cases s
  · simpa using hn
  · simp

@[simp] theorem F64.low_ofSignMagnitude (s : Bool) {n : Nat} (hn : n < 2 ^ 63) : (F64.ofSignMagnitude s n).low = n := by
  rw [F64.low_eq_mod, F64.toNat_ofSignMagnitude s hn]
  cases s <;> simp <;> omega

/-! Signed magnitudes. -/

theorem signed_mul (s : Bool) (n d : ℕ) : signed s n * d = signed s (n * d) := by
  cases s <;> simp [signed]

theorem abs_signed (s : Bool) (n : ℕ) : |signed s n| = n := by
  cases s <;> simp [signed]

theorem signed_neg_iff {s : Bool} {n : ℕ} (h : 0 < n) : signed s n < 0 ↔ s = true := by
  cases s <;> simp [signed, h]

theorem signed_zero (s : Bool) : signed s 0 = 0 := by
  cases s <;> rfl

theorem abs_signed_sub_signed (s t : Bool) (a b : ℕ) :
    |signed s a - signed t b| = if s = t then |(a : ℤ) - b| else (a : ℤ) + b := by
  cases s <;> cases t <;>
    simp only [signed, Bool.false_eq_true, reduceCtorEq, if_true, if_false, abs_eq_max_neg] <;> omega

theorem signed_natAbs (t : ℤ) : signed (decide (t < 0)) t.natAbs = t := by
  by_cases h : t < 0 <;> simp only [signed, h, decide_true, decide_false, if_true, Bool.false_eq_true, if_false] <;> omega

theorem signed_mul_signed (s t : Bool) (m n : ℕ) : signed s m * signed t n = signed (s != t) (m * n) := by
  cases s <;> cases t <;> simp [signed]

/-! The classes. -/

theorem F64.isFinite_iff (a : F64) : a.isFinite = true ↔ a.low < F64.infinityLow := by
  have h := a.low_lt
  simp only [F64.isFinite, F64.exponent_eq, F64.infinityLow, bne_iff_ne]
  omega

theorem F64.isInf_iff (a : F64) : a.isInf = true ↔ a.low = F64.infinityLow := by
  have h := a.low_lt
  simp only [F64.isInf, F64.exponent_eq, F64.fraction_eq, F64.infinityLow, Bool.and_eq_true, beq_iff_eq]
  omega

theorem F64.isNaN_iff (a : F64) : a.isNaN = true ↔ F64.infinityLow < a.low := by
  have h := a.low_lt
  simp only [F64.isNaN, F64.exponent_eq, F64.fraction_eq, F64.infinityLow, Bool.and_eq_true, beq_iff_eq, bne_iff_ne]
  omega

theorem F64.isZero_iff (a : F64) : a.isZero = true ↔ a.low = 0 := by
  simp only [F64.isZero, F64.exponent_eq, F64.fraction_eq, Bool.and_eq_true, beq_iff_eq]
  omega

theorem F64.isNaN_eq_false_iff (a : F64) : a.isNaN = false ↔ a.low ≤ F64.infinityLow := by
  rw [← Bool.not_eq_true, F64.isNaN_iff, not_lt]

theorem F64.isInf_eq_false_of_isFinite {a : F64} (h : a.isFinite = true) : a.isInf = false := by
  rw [F64.isFinite_iff] at h
  rw [← Bool.not_eq_true, F64.isInf_iff]
  omega

theorem F64.isNaN_eq_false_of_isFinite {a : F64} (h : a.isFinite = true) : a.isNaN = false := by
  rw [F64.isFinite_iff] at h
  rw [F64.isNaN_eq_false_iff]
  omega

theorem F64.isNaN_eq_false_of_isInf {a : F64} (h : a.isInf = true) : a.isNaN = false := by
  rw [F64.isInf_iff] at h
  rw [F64.isNaN_eq_false_iff, h]

/-! Magnitudes and values. -/

theorem F64.magnitude_eq (a : F64) : a.magnitude = unitsOfLow a.low := by
  rw [F64.magnitude, F64.exponent_eq, F64.fraction_eq, unitsOfLow]

theorem F64.units_eq (a : F64) : a.units = signed a.sign (unitsOfLow a.low) := by
  rw [F64.units, F64.magnitude_eq, signed]

theorem F64.orderKey_eq (a : F64) : a.orderKey = signed a.sign a.low := rfl

/-- Low bits whose significand q is scaled by 2^e: q may be 2^53, which carries into the exponent field. -/
theorem unitsOfLow_scaled {e q : Nat} (hq : q ≤ 2 ^ 53) (he : e = 0 ∨ 2 ^ 52 ≤ q) :
    unitsOfLow (e * 2 ^ 52 + q) = q * 2 ^ e := by
  rcases Nat.lt_or_ge q (2 ^ 52) with hlt | hge
  · obtain rfl : e = 0 := by omega
    rw [unitsOfLow, if_pos (by omega), Nat.mod_eq_of_lt (by omega)]
    simp
  · rcases Nat.lt_or_ge q (2 ^ 53) with hlt' | hge'
    · have hdiv : (e * 2 ^ 52 + q) / 2 ^ 52 = e + 1 := by omega
      rw [unitsOfLow, hdiv, if_neg (by omega), Nat.add_sub_cancel, show 2 ^ 52 + (e * 2 ^ 52 + q) % 2 ^ 52 = q by omega]
    · obtain rfl : q = 2 ^ 53 := by omega
      have hdiv : (e * 2 ^ 52 + 2 ^ 53) / 2 ^ 52 = e + 2 := by omega
      rw [unitsOfLow, hdiv, if_neg (by omega), show (e * 2 ^ 52 + 2 ^ 53) % 2 ^ 52 = 0 by omega,
        show e + 2 - 1 = e + 1 by omega, Nat.pow_succ 2 e]
      omega

/-- Every low bits are a significand and its scale. -/
theorem exists_scaled (n : Nat) : ∃ e q, n = e * 2 ^ 52 + q ∧ q < 2 ^ 53 ∧ (e = 0 ∨ 2 ^ 52 ≤ q) :=
  ⟨n / 2 ^ 52 - 1, n - (n / 2 ^ 52 - 1) * 2 ^ 52, by omega, by omega, by omega⟩

/-- The low bits order the magnitudes. -/
theorem unitsOfLow_strictMono : StrictMono unitsOfLow := by
  refine strictMono_nat_of_lt_succ fun n => ?_
  obtain ⟨e, q, rfl, hq, he⟩ := exists_scaled n
  rw [Nat.add_assoc, unitsOfLow_scaled (by omega) he, unitsOfLow_scaled (by omega) (by omega)]
  exact Nat.mul_lt_mul_of_pos_right (Nat.lt_succ_self q) (Nat.two_pow_pos e)

@[simp] theorem unitsOfLow_zero : unitsOfLow 0 = 0 := rfl

/-! The negative of a pattern. -/

@[simp] theorem F64.sign_fneg (a : F64) : (fneg a).sign = !a.sign := by
  simp [F64.sign, fneg]
@[simp] theorem F64.low_fneg (a : F64) : (fneg a).low = a.low := by
  rw [F64.low, F64.low, fneg, BitVec.extractLsb'_xor]
  simp

theorem F64.units_fneg (a : F64) : (fneg a).units = -a.units := by
  rw [F64.units_eq, F64.units_eq, F64.sign_fneg, F64.low_fneg]
  cases a.sign <;> simp [signed]

theorem F64.isFinite_fneg (a : F64) : (fneg a).isFinite = a.isFinite := by
  rw [Bool.eq_iff_iff, F64.isFinite_iff, F64.isFinite_iff, F64.low_fneg]
theorem F64.isInf_fneg (a : F64) : (fneg a).isInf = a.isInf := by
  rw [Bool.eq_iff_iff, F64.isInf_iff, F64.isInf_iff, F64.low_fneg]
theorem F64.isNaN_fneg (a : F64) : (fneg a).isNaN = a.isNaN := by
  rw [Bool.eq_iff_iff, F64.isNaN_iff, F64.isNaN_iff, F64.low_fneg]

/-! The infinities. -/

/-- The infinity of a sign. -/
theorem ofSignMagnitude_infinityLow (s : Bool) :
    F64.ofSignMagnitude s F64.infinityLow = if s then minusInfinity else plusInfinity := by
  cases s <;> rfl

theorem F64.eq_infinity_of_isInf {a : F64} (h : a.isInf = true) : a = if a.sign then minusInfinity else plusInfinity := by
  rw [← ofSignMagnitude_infinityLow]
  refine F64.eq_of_sign_of_low ?_ ?_
  · rw [F64.sign_ofSignMagnitude _ (by decide)]
  · rw [F64.low_ofSignMagnitude _ (by decide), (F64.isInf_iff a).mp h]

end Sys2Proof.Machine
end

section
/-! PROOFS. The quiet less-than (spec/00_scope.md R23). -/

namespace Sys2Proof.Machine

theorem flt_of_isNaN {a b : F64} (h : a.isNaN = true ∨ b.isNaN = true) : flt a b = false := by
  rcases h with h | h <;> simp [flt, h]

theorem flt_of_not_isNaN {a b : F64} (ha : a.isNaN = false) (hb : b.isNaN = false) :
    flt a b = decide (a.orderKey < b.orderKey) := by
  simp [flt, ha, hb]

/-- The sign and low bits order the patterns as the sign and magnitude order the values. -/
theorem orderKey_lt_iff_units_lt (a b : F64) : a.orderKey < b.orderKey ↔ a.units < b.units := by
  have hmono : unitsOfLow a.low < unitsOfLow b.low ↔ a.low < b.low := unitsOfLow_strictMono.lt_iff_lt
  have hmono' : unitsOfLow b.low < unitsOfLow a.low ↔ b.low < a.low := unitsOfLow_strictMono.lt_iff_lt
  have hpos (n : Nat) : unitsOfLow n = 0 ↔ n = 0 := unitsOfLow_strictMono.injective.eq_iff' rfl
  have ha := hpos a.low
  have hb := hpos b.low
  rw [F64.orderKey_eq, F64.orderKey_eq, F64.units_eq, F64.units_eq]
  cases a.sign <;> cases b.sign <;> simp only [signed, Bool.false_eq_true, if_false, if_true] <;> omega

/-- No value that is not a NaN is beyond an infinity. -/
theorem F64.orderKey_bounds {a : F64} (h : a.isNaN = false) :
    minusInfinity.orderKey ≤ a.orderKey ∧ a.orderKey ≤ plusInfinity.orderKey := by
  have hlow := (F64.isNaN_eq_false_iff a).mp h
  rw [show minusInfinity.orderKey = -(F64.infinityLow : Int) from rfl,
    show plusInfinity.orderKey = (F64.infinityLow : Int) from rfl, F64.orderKey_eq, signed]
  split <;> omega

/-- Only an infinity has an infinity's place in the order. -/
theorem F64.eq_infinity_of_orderKey {a : F64} {s : Bool} (h : a.orderKey = signed s F64.infinityLow) :
    a = if s then minusInfinity else plusInfinity := by
  obtain ⟨hsign, hlow⟩ : a.sign = s ∧ a.low = F64.infinityLow := by
    rw [F64.orderKey_eq, F64.infinityLow] at h
    rw [F64.infinityLow]
    revert h
    cases a.sign <;> cases s <;> simp [signed] <;> omega
  have hinf := F64.eq_infinity_of_isInf ((F64.isInf_iff a).mpr hlow)
  rwa [hsign] at hinf

theorem plusInfinity_flt (b : F64) : flt plusInfinity b = false := by
  cases hb : b.isNaN with
  | true => exact flt_of_isNaN (.inr hb)
  | false => simpa [flt_of_not_isNaN (a := plusInfinity) rfl hb] using (F64.orderKey_bounds hb).2

theorem flt_minusInfinity (a : F64) : flt a minusInfinity = false := by
  cases ha : a.isNaN with
  | true => exact flt_of_isNaN (.inl ha)
  | false => simpa [flt_of_not_isNaN (b := minusInfinity) ha rfl] using (F64.orderKey_bounds ha).1

theorem minusInfinity_flt {b : F64} (hb : b.isNaN = false) (hne : b ≠ minusInfinity) : flt minusInfinity b = true := by
  rw [flt_of_not_isNaN (a := minusInfinity) rfl hb, decide_eq_true_eq]
  exact lt_of_le_of_ne (F64.orderKey_bounds hb).1 fun h => hne (F64.eq_infinity_of_orderKey (s := true) h.symm)

theorem flt_plusInfinity {a : F64} (ha : a.isNaN = false) (hne : a ≠ plusInfinity) : flt a plusInfinity = true := by
  rw [flt_of_not_isNaN (b := plusInfinity) ha rfl, decide_eq_true_eq]
  exact lt_of_le_of_ne (F64.orderKey_bounds ha).2 fun h => hne (F64.eq_infinity_of_orderKey (s := false) h)

/-- Settles O56: flt compares the low bits with their sign, which are ordered as the values are. -/
theorem lessThanComparesValues : Obligations.LessThanComparesValues := by
  intro a b
  refine ⟨fun ha hb => ?_, flt_of_isNaN, plusInfinity_flt b, flt_minusInfinity a, minusInfinity_flt, flt_plusInfinity⟩
  rw [flt_of_not_isNaN (F64.isNaN_eq_false_of_isFinite ha) (F64.isNaN_eq_false_of_isFinite hb), decide_eq_decide]
  exact orderKey_lt_iff_units_lt a b

end Sys2Proof.Machine
end

section
/-! PROOFS. The binary64 operations by the classes of their operands (spec/00_scope.md R23): everything but the
rounding. -/

namespace Sys2Proof.Machine

theorem fadd_of_isNaN (nan : F64) {a b : F64} (h : a.isNaN = true ∨ b.isNaN = true) : fadd nan a b = nan := by
  rw [fadd, if_pos (by simpa using h)]

theorem fsub_of_isNaN (nan : F64) {a b : F64} (h : a.isNaN = true ∨ b.isNaN = true) : fsub nan a b = nan := by
  rw [fsub]
  exact fadd_of_isNaN nan (by rwa [F64.isNaN_fneg])

theorem fmul_of_isNaN (nan : F64) {a b : F64} (h : a.isNaN = true ∨ b.isNaN = true) : fmul nan a b = nan := by
  rw [fmul, if_pos (by simpa using h)]

theorem fadd_of_isFinite (nan : F64) {a b : F64} (ha : a.isFinite = true) (hb : b.isFinite = true) :
    fadd nan a b = if a.units + b.units = 0 then F64.ofSignMagnitude (a.sign && b.sign) 0
      else roundTo (decide (a.units + b.units < 0)) (a.units + b.units).natAbs 0 := by
  simp [fadd, F64.isNaN_eq_false_of_isFinite, F64.isInf_eq_false_of_isFinite, ha, hb]

theorem fadd_of_isInf_of_isFinite (nan : F64) {a b : F64} (ha : a.isInf = true) (hb : b.isFinite = true) :
    fadd nan a b = a := by
  simp [fadd, F64.isNaN_eq_false_of_isFinite, F64.isInf_eq_false_of_isFinite, F64.isNaN_eq_false_of_isInf, ha, hb]

theorem fadd_of_isFinite_of_isInf (nan : F64) {a b : F64} (ha : a.isFinite = true) (hb : b.isInf = true) :
    fadd nan a b = b := by
  simp [fadd, F64.isNaN_eq_false_of_isFinite, F64.isInf_eq_false_of_isFinite, F64.isNaN_eq_false_of_isInf, ha, hb]

theorem fadd_of_isInf_of_isInf (nan : F64) {a b : F64} (ha : a.isInf = true) (hb : b.isInf = true) :
    fadd nan a b = if a.sign = b.sign then a else nan := by
  simp [fadd, F64.isNaN_eq_false_of_isInf, ha, hb]

theorem fadd_of_units_eq_zero (nan : F64) {a b : F64} (ha : a.isFinite = true) (hb : b.isFinite = true)
    (h : a.units + b.units = 0) : fadd nan a b = if a.sign && b.sign then 0x8000000000000000 else 0 := by
  rw [fadd_of_isFinite nan ha hb, if_pos h]
  cases a.sign && b.sign <;> rfl

theorem fsub_of_units_eq_zero (nan : F64) {a b : F64} (ha : a.isFinite = true) (hb : b.isFinite = true)
    (h : a.units - b.units = 0) : fsub nan a b = if a.sign && !b.sign then 0x8000000000000000 else 0 := by
  rw [← F64.sign_fneg]
  exact fadd_of_units_eq_zero nan ha (by rwa [F64.isFinite_fneg]) (by rwa [F64.units_fneg])

theorem fsub_of_isInf_of_isFinite (nan : F64) {a b : F64} (ha : a.isInf = true) (hb : b.isFinite = true) :
    fsub nan a b = a :=
  fadd_of_isInf_of_isFinite nan ha (by rwa [F64.isFinite_fneg])

theorem fsub_of_isFinite_of_isInf (nan : F64) {a b : F64} (ha : a.isFinite = true) (hb : b.isInf = true) :
    fsub nan a b = if !b.sign then minusInfinity else plusInfinity := by
  have hb' : (fneg b).isInf = true := by rwa [F64.isInf_fneg]
  rw [fsub, fadd_of_isFinite_of_isInf nan ha hb', F64.eq_infinity_of_isInf hb', F64.sign_fneg]

theorem fsub_of_isInf_of_isInf (nan : F64) {a b : F64} (ha : a.isInf = true) (hb : b.isInf = true) :
    fsub nan a b = if a.sign = b.sign then nan else a := by
  rw [fsub, fadd_of_isInf_of_isInf nan ha (by rwa [F64.isInf_fneg]), F64.sign_fneg]
  cases a.sign <;> cases b.sign <;> rfl

theorem fmul_of_isFinite (nan : F64) {a b : F64} (ha : a.isFinite = true) (hb : b.isFinite = true) :
    fmul nan a b = roundTo (a.sign != b.sign) (a.magnitude * b.magnitude) 1074 := by
  simp [fmul, F64.isNaN_eq_false_of_isFinite, F64.isInf_eq_false_of_isFinite, ha, hb]

theorem fmul_of_isInf (nan : F64) {a b : F64} (ha : a.isNaN = false) (hb : b.isNaN = false)
    (h : a.isInf = true ∨ b.isInf = true) :
    fmul nan a b = if a.isZero = true ∨ b.isZero = true then nan
      else if a.sign != b.sign then minusInfinity else plusInfinity := by
  rw [← ofSignMagnitude_infinityLow]
  simp [fmul, ha, hb, h]

theorem fsqrt_of_isNaN (nan : F64) {a : F64} (h : a.isNaN = true) : fsqrt nan a = nan := by
  simp [fsqrt, h]

theorem fsqrt_of_isZero (nan : F64) {a : F64} (h : a.isZero = true) : fsqrt nan a = a := by
  have hnan : a.isNaN = false := by
    rw [F64.isNaN_eq_false_iff, (F64.isZero_iff a).mp h]
    exact Nat.zero_le _
  simp [fsqrt, hnan, h]

theorem fsqrt_of_negative (nan : F64) {a : F64} (hn : a.isNaN = false) (hz : a.isZero = false) (hs : a.sign = true) :
    fsqrt nan a = nan := by
  simp [fsqrt, hn, hz, hs]

theorem fsqrt_plusInfinity (nan : F64) : fsqrt nan plusInfinity = plusInfinity := rfl

end Sys2Proof.Machine
end

section
/-! PROOFS. The floating-point facade commands NEXTDRANGE and NEXTPOLAR (spec/43_facade.md R266, R278). -/

namespace Sys2Proof.Machine

/-- The low bits of a free NaN result: past the infinities by its fraction, which is not zero (93 I5). -/
theorem low_nanPattern (s : Bool) (f : BitVec 52) :
    (nanPattern s f).low = F64.infinityLow + (if f = 0 then 1#52 else f).toNat := by
  have hf := (if f = 0 then 1#52 else f).isLt
  rw [F64.low_eq_mod, nanPattern, BitVec.toNat_append, BitVec.toNat_append, ← Nat.shiftLeft_add_eq_or_of_lt hf,
    Nat.shiftLeft_eq, F64.infinityLow]
  cases s <;> simp at hf ⊢ <;> omega

theorem isNaN_nanPattern (s : Bool) (f : BitVec 52) : (nanPattern s f).isNaN = true := by
  have hf : 0 < (if f = 0 then 1#52 else f).toNat := by
    split <;> bv_omega
  rw [F64.isNaN_iff, low_nanPattern]
  omega

theorem isNaN_freeNaN (k : Nat) : (freeNaN k).isNaN = true := isNaN_nanPattern _ _

/-- A NaN bound reaches the result of lo + (hi - lo) * d, by way of the difference and the product (R266). -/
theorem isNaN_doubleInRange {nan lo hi : F64} (hnan : nan.isNaN = true) (h : lo.isNaN = true ∨ hi.isNaN = true) (d : F64) :
    (doubleInRange nan lo hi d).isNaN = true := by
  rw [doubleInRange, fsub_of_isNaN nan h.symm, fmul_of_isNaN nan (.inl hnan), fadd_of_isNaN nan (.inr hnan)]
  exact hnan

theorem exec_nextDRange (slot : SlotNum) (s : State) : exec (.nextDRange slot) s = execNextDRange slot s := rfl

theorem exec_nextPolar (slot : SlotNum) (s : State) : exec (.nextPolar slot) s = execNextPolar slot s := rfl

/-- Settles O39: the comparison comes before the draw, and the NaN is the command's free one. -/
theorem nextDRangeResult : Obligations.NextDRangeResult := by
  intro slot s
  refine ⟨⟨rfl, rfl, rfl, rfl⟩, fun h => onEngine_empty (i := .nextDRange slot) h, fun g hg => ?_⟩
  rw [exec_nextDRange, execNextDRange, onEngine_some hg]
  refine ⟨fun hlt => ?_, fun hge => ⟨freeNaN s.fresh, isNaN_freeNaN _, ?_, fun h => ?_⟩⟩
  · rw [if_pos hlt]; rfl
  · rw [if_neg (by simp [hge])]; rfl
  · exact isNaN_doubleInRange (isNaN_freeNaN _) h _

/-- Settles O45: the two draws in order, and the NaN is the command's free one. -/
theorem nextPolarResult : Obligations.NextPolarResult := by
  intro slot s
  refine ⟨⟨rfl, rfl, rfl, rfl⟩, fun h => onEngine_empty (i := .nextPolar slot) h,
    fun g hg => ⟨freeNaN s.fresh, isNaN_freeNaN _, ?_⟩⟩
  rw [exec_nextPolar, execNextPolar, onEngine_some hg]
  rfl

end Sys2Proof.Machine
end

section
/-! PROOFS. Rounding to nearest, ties to even (spec/00_scope.md R23): the low bits that roundMagnitude answers are the
nearest to the magnitude, and RoundsTo follows for both signs. -/

namespace Sys2Proof.Machine

/-- The low bits n are the nearest to the magnitude x, ties to even, among all low bits c: x lies on n's side of the
midpoint of n and c, and may lie on the midpoint only if n is even. -/
def NearestLow (x : ℝ) (n : ℕ) : Prop :=
  ∀ c, (n < c → 2 * x ≤ unitsOfLow n + unitsOfLow c) ∧ (c < n → unitsOfLow n + unitsOfLow c ≤ 2 * x) ∧
    (c ≠ n → unitsOfLow n + unitsOfLow c = 2 * x → n % 2 = 0)

theorem unitsOfLow_real_lt {a b : ℕ} (h : a < b) : (unitsOfLow a : ℝ) < unitsOfLow b :=
  Nat.cast_lt.mpr (unitsOfLow_strictMono h)

theorem unitsOfLow_real_le {a b : ℕ} (h : a ≤ b) : (unitsOfLow a : ℝ) ≤ unitsOfLow b :=
  Nat.cast_le.mpr (unitsOfLow_strictMono.monotone h)

/-- A magnitude in the lower half of the step from n to n + 1 rounds to n. -/
theorem nearestLow_of_lower_half {x : ℝ} {n : ℕ} (hlo : unitsOfLow n ≤ x)
    (hmid : 2 * x ≤ unitsOfLow n + unitsOfLow (n + 1))
    (htie : 2 * x = unitsOfLow n + unitsOfLow (n + 1) → n % 2 = 0) : NearestLow x n := by
  intro c
  refine ⟨fun hc => ?_, fun hc => ?_, fun hne heq => ?_⟩
  · have := unitsOfLow_real_le hc
    linarith
  · have := unitsOfLow_real_lt hc
    linarith
  · rcases Nat.lt_or_gt_of_ne hne with hc | hc
    · have := unitsOfLow_real_lt hc
      linarith
    · have := unitsOfLow_real_le hc
      exact htie (by linarith)

/-- A magnitude in the upper half of the step from n to n + 1 rounds to n + 1. -/
theorem nearestLow_of_upper_half {x : ℝ} {n : ℕ} (hhi : x < unitsOfLow (n + 1))
    (hmid : unitsOfLow n + unitsOfLow (n + 1) ≤ 2 * x)
    (htie : 2 * x = unitsOfLow n + unitsOfLow (n + 1) → n % 2 = 1) : NearestLow x (n + 1) := by
  intro c
  refine ⟨fun hc => ?_, fun hc => ?_, fun hne heq => ?_⟩
  · have := unitsOfLow_real_lt hc
    linarith
  · have := unitsOfLow_real_le (Nat.lt_succ_iff.mp hc)
    linarith
  · rcases Nat.lt_or_gt_of_ne hne with hc | hc
    · have := unitsOfLow_real_le (Nat.lt_succ_iff.mp hc)
      have := htie (by linarith)
      omega
    · have := unitsOfLow_real_lt hc
      linarith

/-- Everything roundShift can answer: the quotient, in the lower half of its step, or the next integer, in the upper
half, and on the midpoint the even one of the two. -/
theorem roundShift_cases (m j : ℕ) :
    (2 * m ≤ (2 * (m / 2 ^ j) + 1) * 2 ^ j ∧ (2 * m = (2 * (m / 2 ^ j) + 1) * 2 ^ j → m / 2 ^ j % 2 = 0) ∧
      roundShift m j = m / 2 ^ j) ∨
    ((2 * (m / 2 ^ j) + 1) * 2 ^ j ≤ 2 * m ∧ (2 * m = (2 * (m / 2 ^ j) + 1) * 2 ^ j → m / 2 ^ j % 2 = 1) ∧
      roundShift m j = m / 2 ^ j + 1) := by
  have hm : m = 2 ^ j * (m / 2 ^ j) + m % 2 ^ j := (Nat.div_add_mod m _).symm
  have hmid : (2 * (m / 2 ^ j) + 1) * 2 ^ j = 2 * (2 ^ j * (m / 2 ^ j)) + 2 ^ j := by ring
  have hj : j = 0 → 2 ^ j = 1 ∧ m % 2 ^ j = 0 := by
    rintro rfl
    exact ⟨rfl, Nat.mod_one m⟩
  rw [hmid, roundShift, Nat.shiftRight_eq_div_pow]
  generalize 2 ^ j * (m / 2 ^ j) = p at *
  generalize m / 2 ^ j = q at *
  generalize m % 2 ^ j = r at *
  generalize 2 ^ j = w at *
  split_ifs with h1 h2 h3
  · exact .inl ⟨by omega, by omega, rfl⟩
  · exact .inr ⟨by omega, by omega, rfl⟩
  · omega
  · rcases Nat.mod_two_eq_zero_or_one q with hq | hq
    · exact .inl ⟨by omega, fun _ => hq, by omega⟩
    · exact .inr ⟨by omega, fun _ => hq, by omega⟩

/-- The number of low bits of m / 2^k that a 53-bit significand cannot hold. -/
def excessBits (m k : ℕ) : ℕ := Nat.log2 m - (k + 52)

/-- roundMagnitude before it is cut off at infinity. -/
def roundLow (m k : ℕ) : ℕ := excessBits m k * 2 ^ 52 + roundShift m (k + excessBits m k)

theorem roundMagnitude_eq (m k : ℕ) : roundMagnitude m k = min (roundLow m k) F64.infinityLow := rfl

/-- The significand of m / 2^k has at most 53 bits, and 53 if a bit is in excess. -/
theorem significand_bounds (m k : ℕ) :
    m / 2 ^ (k + excessBits m k) < 2 ^ 53 ∧ (excessBits m k = 0 ∨ 2 ^ 52 ≤ m / 2 ^ (k + excessBits m k)) := by
  constructor
  · rw [Nat.div_lt_iff_lt_mul (Nat.two_pow_pos _), ← Nat.pow_add]
    refine lt_of_lt_of_le Nat.lt_log2_self (Nat.pow_le_pow_right (by omega) ?_)
    rw [excessBits]
    omega
  · rcases Nat.eq_zero_or_pos (excessBits m k) with h | h
    · exact .inl h
    · have hm : m ≠ 0 := by
        rintro rfl
        simp [excessBits] at h
      refine .inr ?_
      rw [Nat.le_div_iff_mul_le (Nat.two_pow_pos _), ← Nat.pow_add]
      refine le_trans (Nat.pow_le_pow_right (by omega) ?_) (Nat.log2_self_le hm)
      rw [excessBits] at h ⊢
      omega

/-- x lies where m / 2^k lies among the multiples of half a unit of the significand of m / 2^k. -/
def RoundsLike (x : ℝ) (m k : ℕ) : Prop :=
  ∀ h : ℕ, (2 * x ≤ h * 2 ^ excessBits m k ↔ 2 * m ≤ h * 2 ^ (k + excessBits m k)) ∧
    (h * 2 ^ excessBits m k ≤ 2 * x ↔ h * 2 ^ (k + excessBits m k) ≤ 2 * m)

/-- The rounding is to nearest, ties to even: it decides by halves of a unit of the significand alone. -/
theorem nearestLow_roundLow {x : ℝ} {m k : ℕ} (hx : RoundsLike x m k) : NearestLow x (roundLow m k) := by
  obtain ⟨hq, he⟩ := significand_bounds m k
  have hcases := roundShift_cases m (k + excessBits m k)
  have hlow := Nat.div_mul_le_self m (2 ^ (k + excessBits m k))
  have hhigh := Nat.lt_div_mul_add (a := m) (Nat.two_pow_pos (k + excessBits m k))
  rw [roundLow]
  unfold RoundsLike at hx
  generalize excessBits m k = e at *
  generalize m / 2 ^ (k + e) = q at *
  have hn : (unitsOfLow (e * 2 ^ 52 + q) : ℝ) = q * 2 ^ e := by
    rw [unitsOfLow_scaled hq.le he]; push_cast; rfl
  have hn1 : (unitsOfLow (e * 2 ^ 52 + q + 1) : ℝ) = (q + 1) * 2 ^ e := by
    rw [Nat.add_assoc, unitsOfLow_scaled (by omega) (by omega)]; push_cast; rfl
  have hsum : (unitsOfLow (e * 2 ^ 52 + q) : ℝ) + unitsOfLow (e * 2 ^ 52 + q + 1) = (2 * q + 1 : ℕ) * 2 ^ e := by
    rw [hn, hn1]; push_cast; ring
  have hlo : (unitsOfLow (e * 2 ^ 52 + q) : ℝ) ≤ x := by
    have := (hx (2 * q)).2.mpr (by rw [Nat.mul_assoc]; omega)
    rw [hn]; push_cast at this; linarith
  have hhi : x < unitsOfLow (e * 2 ^ 52 + q + 1) := by
    have := mt (hx (2 * (q + 1))).2.mp (by rw [Nat.mul_assoc, Nat.add_mul]; omega)
    rw [hn1]; push_cast at this; linarith
  have htie (h : 2 * x = (2 * q + 1 : ℕ) * 2 ^ e) : 2 * m = (2 * q + 1) * 2 ^ (k + e) :=
    le_antisymm ((hx _).1.mp h.le) ((hx _).2.mp h.ge)
  rcases hcases with ⟨hmid, heven, hr⟩ | ⟨hmid, hodd, hr⟩
  · rw [hr]
    refine nearestLow_of_lower_half hlo (hsum ▸ (hx _).1.mpr hmid) fun h => ?_
    have := heven (htie (hsum ▸ h))
    omega
  · rw [hr, ← Nat.add_assoc]
    refine nearestLow_of_upper_half hhi (hsum ▸ (hx _).2.mpr hmid) fun h => ?_
    have := hodd (htie (hsum ▸ h))
    omega

/-- A number is rounded like itself. -/
theorem roundsLike_div (m k : ℕ) : RoundsLike (m / 2 ^ k) m k := by
  intro h
  rw [mul_div_assoc', div_le_iff₀ (by positivity), le_div_iff₀ (by positivity), pow_add, mul_comm (2 ^ k), ← mul_assoc]
  constructor <;> norm_cast

/-! Overflow. -/

theorem unitsOfLow_infinityLow : unitsOfLow F64.infinityLow = 2 ^ 54 * 2 ^ 2044 := by
  have h := unitsOfLow_scaled (e := 2045) (q := 2 ^ 53) (by omega) (by omega)
  rw [F64.infinityLow, show 0x7FF * 2 ^ 52 = 2045 * 2 ^ 52 + 2 ^ 53 by omega, h, Nat.pow_succ 2 2044]
  omega

/-- The greatest finite magnitude. -/
theorem unitsOfLow_greatestFinite : unitsOfLow (F64.infinityLow - 1) = (2 ^ 54 - 2) * 2 ^ 2044 := by
  have h := unitsOfLow_scaled (e := 2045) (q := 2 ^ 53 - 1) (by omega) (by omega)
  rw [F64.infinityLow, show 0x7FF * 2 ^ 52 - 1 = 2045 * 2 ^ 52 + (2 ^ 53 - 1) by omega, h, Nat.pow_succ 2 2044]
  omega

/-- A magnitude rounds to infinity or beyond exactly from the midpoint on that RoundsTo names: the greatest finite low
bits are odd, so the midpoint itself rounds up. -/
theorem infinityLow_le_iff {x : ℝ} {n : ℕ} (h : NearestLow x n) :
    F64.infinityLow ≤ n ↔ (2 ^ 54 - 1) * 2 ^ 2044 ≤ x := by
  have hinf : (unitsOfLow F64.infinityLow : ℝ) = 2 ^ 54 * 2 ^ 2044 := by
    rw [unitsOfLow_infinityLow, Nat.cast_mul, Nat.cast_pow, Nat.cast_pow, Nat.cast_ofNat]
  have hmax : (unitsOfLow (F64.infinityLow - 1) : ℝ) = (2 ^ 54 - 2) * 2 ^ 2044 := by
    rw [unitsOfLow_greatestFinite, Nat.cast_mul, Nat.cast_pow, Nat.cast_ofNat]
    norm_num
  have hpos : (0 : ℝ) < 2 ^ 2044 := by positivity
  generalize (2 : ℝ) ^ 2044 = p at *
  constructor
  · intro hn
    have hmid := (h (F64.infinityLow - 1)).2.1 (by simp only [F64.infinityLow] at hn ⊢; omega)
    have := unitsOfLow_real_le hn
    linarith
  · intro hx
    by_contra hn
    have hmid := (h F64.infinityLow).1 (by omega)
    have hle := unitsOfLow_real_le (show n ≤ F64.infinityLow - 1 by omega)
    have hodd := (h F64.infinityLow).2.2 (by omega) (by linarith)
    have hn' : n = F64.infinityLow - 1 :=
      unitsOfLow_strictMono.injective (Nat.cast_injective (R := ℝ) (by linarith))
    rw [hn'] at hodd
    exact absurd hodd (by decide)

/-! The nearest finite value. -/

/-- Low bits nearest to m / d are at least as near as any others, and where others are equally near they are even. -/
theorem NearestLow.dist_le {m d n : ℕ} (hd : 0 < d) (h : NearestLow (m / d) n) (c : ℕ) :
    |((unitsOfLow n * d : ℕ) : ℤ) - m| ≤ |((unitsOfLow c * d : ℕ) : ℤ) - m| ∧
      (|((unitsOfLow n * d : ℕ) : ℤ) - m| = |((unitsOfLow c * d : ℕ) : ℤ) - m| → c ≠ n → n % 2 = 0) := by
  obtain ⟨hlt, hgt, htie⟩ := h c
  have hd' : (0 : ℝ) < d := Nat.cast_pos.mpr hd
  rw [mul_div_assoc', div_le_iff₀ hd', add_mul] at hlt
  rw [mul_div_assoc', le_div_iff₀ hd', add_mul] at hgt
  rw [mul_div_assoc', eq_div_iff hd'.ne', add_mul] at htie
  norm_cast at hlt hgt htie
  have hmono {a b : ℕ} (hab : a < b) : unitsOfLow a * d < unitsOfLow b * d :=
    Nat.mul_lt_mul_of_pos_right (unitsOfLow_strictMono hab) hd
  rw [abs_eq_max_neg, abs_eq_max_neg]
  rcases lt_trichotomy n c with hc | rfl | hc
  · have := hlt hc
    have := hmono hc
    exact ⟨by omega, fun _ hne => htie hne (by omega)⟩
  · exact ⟨le_rfl, fun _ hne => absurd rfl hne⟩
  · have := hgt hc
    have := hmono hc
    exact ⟨by omega, fun _ hne => htie hne (by omega)⟩

/-- A candidate of the other sign is no nearer than zero, so the magnitudes decide. -/
theorem nearestEven_of_nearestLow {s : Bool} {m d : ℕ} {r : F64} (hd : 0 < d) (h : NearestLow (m / d) r.low)
    (hs : r.sign = s) : NearestEven (signed s m) d r := by
  intro c _
  have heven : r.fraction % 2 = r.low % 2 := by
    rw [F64.fraction_eq]
    omega
  rw [heven, F64.units_eq, F64.units_eq c, hs, signed_mul, signed_mul, abs_signed_sub_signed, abs_signed_sub_signed,
    if_pos rfl]
  by_cases hc : c.sign = s
  · rw [if_pos hc, hc]
    obtain ⟨hle, htie⟩ := h.dist_le hd c.low
    exact ⟨hle, fun heq hne => htie heq fun hlow => hne (by rw [hlow])⟩
  · rw [if_neg hc]
    obtain ⟨hle, htie⟩ := h.dist_le hd 0
    have hzero : |((unitsOfLow 0 * d : ℕ) : ℤ) - m| = m := by simp
    rw [hzero] at hle htie
    refine ⟨by omega, fun heq hne => htie (by omega) fun hlow => hne ?_⟩
    have hc0 : unitsOfLow c.low * d = 0 := by omega
    rw [← hlow, (Nat.mul_eq_zero.mp hc0).resolve_right hd.ne', unitsOfLow_zero, signed_zero, signed_zero]

theorem roundMagnitude_lt (m k : ℕ) : roundMagnitude m k < 2 ^ 63 :=
  lt_of_le_of_lt (Nat.min_le_right _ _) (by decide)

theorem sign_roundTo (s : Bool) (m k : ℕ) : (roundTo s m k).sign = s :=
  F64.sign_ofSignMagnitude s (roundMagnitude_lt m k)

theorem low_roundTo (s : Bool) (m k : ℕ) : (roundTo s m k).low = min (roundLow m k) F64.infinityLow :=
  F64.low_ofSignMagnitude s (roundMagnitude_lt m k)

/-- roundTo rounds as IEEE 754 does. -/
theorem roundsTo_roundTo (s : Bool) (m k : ℕ) : RoundsTo (signed s m) (2 ^ k) (roundTo s m k) := by
  have hnear : NearestLow (m / (2 ^ k : ℕ)) (roundLow m k) := by
    rw [Nat.cast_pow, Nat.cast_ofNat]
    exact nearestLow_roundLow (roundsLike_div m k)
  have hover : F64.infinityLow ≤ roundLow m k ↔ (2 ^ 54 - 1) * 2 ^ 2044 * ((2 ^ k : ℕ) : ℤ) ≤ |signed s m| := by
    rw [infinityLow_le_iff hnear, le_div_iff₀ (by positivity), abs_signed]
    generalize 2 ^ k = d
    rw [← Int.cast_le (R := ℝ)]
    simp only [Int.cast_mul, Int.cast_sub, Int.cast_pow, Int.cast_ofNat, Int.cast_one, Int.cast_natCast]
  rw [RoundsTo, if_congr hover.symm rfl rfl]
  by_cases h : F64.infinityLow ≤ roundLow m k
  · have hpos : 0 < |signed s m| := lt_of_lt_of_le (by positivity) (hover.mp h)
    rw [abs_signed, Int.natCast_pos] at hpos
    rw [if_pos h, if_congr (signed_neg_iff hpos) rfl rfl, roundTo, roundMagnitude_eq, Nat.min_eq_right h,
      ofSignMagnitude_infinityLow]
  · have hlow : (roundTo s m k).low = roundLow m k := by
      rw [low_roundTo]
      omega
    rw [if_neg h]
    refine ⟨(F64.isFinite_iff _).mpr (by omega), ?_⟩
    exact nearestEven_of_nearestLow (Nat.two_pow_pos k) (hlow ▸ hnear) (sign_roundTo s m k)

end Sys2Proof.Machine
end

section
/-! PROOFS. The square root (spec/00_scope.md R23): the integer root with its sticky bit rounds as the root does. -/

namespace Sys2Proof.Machine

/-- The digits found are those of the square root. -/
theorem isqrtFrom_eq_sqrt {n k r : ℕ} (hlo : r * r ≤ n) (hhi : n < (r + 2 ^ k) * (r + 2 ^ k)) :
    isqrtFrom n k r = Nat.sqrt n := by
  induction k generalizing r with
  | zero => exact Nat.eq_sqrt.mpr ⟨hlo, hhi⟩
  | succ k ih =>
    rw [isqrtFrom]
    split_ifs with h
    · exact ih h (by rwa [Nat.add_assoc, ← Nat.two_mul, ← Nat.pow_succ'])
    · exact ih hlo (by omega)

theorem isqrt_eq_sqrt (n : ℕ) : isqrt n = Nat.sqrt n := by
  refine isqrtFrom_eq_sqrt (Nat.zero_le n) ?_
  rw [Nat.zero_add, ← Nat.pow_add]
  exact lt_of_lt_of_le Nat.lt_log2_self (Nat.pow_le_pow_right (by omega) (by omega))

/-- The root of n in half units, odd exactly when the root is not an integer: what fsqrt rounds. -/
def stickyRoot (n : ℕ) : ℕ := 2 * Nat.sqrt n + (if Nat.sqrt n * Nat.sqrt n = n then 0 else 1)

theorem le_mul_self_iff_stickyRoot (n j : ℕ) : n ≤ j * j ↔ stickyRoot n ≤ 2 * j := by
  rw [stickyRoot]
  split_ifs with h
  · rw [← h, Nat.sqrt_eq, Nat.mul_self_le_mul_self_iff]
    omega
  · have hne : n ≠ j * j := fun heq => h (by rw [heq, Nat.sqrt_eq])
    rw [Nat.le_iff_lt_or_eq, or_iff_left hne, ← Nat.sqrt_lt]
    omega

theorem mul_self_le_iff_stickyRoot (n j : ℕ) : j * j ≤ n ↔ 2 * j ≤ stickyRoot n := by
  rw [stickyRoot, ← Nat.le_sqrt]
  split_ifs <;> omega

theorem two_mul_sqrt_sq (n : ℕ) : (2 * Real.sqrt n) ^ 2 = 4 * n := by
  rw [mul_pow, Real.sq_sqrt (Nat.cast_nonneg n)]
  norm_num

theorem two_mul_sqrt_le_iff (n j : ℕ) : 2 * Real.sqrt n ≤ j ↔ 4 * n ≤ j ^ 2 := by
  rw [← pow_le_pow_iff_left₀ (by positivity) (by positivity) two_ne_zero, two_mul_sqrt_sq]
  norm_cast

theorem le_two_mul_sqrt_iff (n j : ℕ) : j ≤ 2 * Real.sqrt n ↔ j ^ 2 ≤ 4 * n := by
  rw [← pow_le_pow_iff_left₀ (by positivity) (by positivity) two_ne_zero, two_mul_sqrt_sq]
  norm_cast

/-- Half units of the significand are even numbers of half units of the root, which the sticky bit does not cross. -/
theorem roundsLike_sqrt {n : ℕ} (hn : 2 ^ 106 ≤ n) : RoundsLike (Real.sqrt n) (stickyRoot n) 1 := by
  have he : 0 < excessBits (stickyRoot n) 1 := by
    have hroot := (mul_self_le_iff_stickyRoot n (2 ^ 53)).mp (by omega)
    have := (Nat.le_log2 (k := 54) (by omega)).mpr (by omega : 2 ^ 54 ≤ stickyRoot n)
    rw [excessBits]
    omega
  obtain ⟨e, he⟩ := Nat.exists_eq_add_one_of_ne_zero he.ne'
  intro j
  have heven : j * 2 ^ excessBits (stickyRoot n) 1 = 2 * (j * 2 ^ e) := by rw [he]; ring
  have hunit : j * 2 ^ (1 + excessBits (stickyRoot n) 1) = 2 * (2 * (j * 2 ^ e)) := by rw [he]; ring
  have hreal : (j : ℝ) * 2 ^ excessBits (stickyRoot n) 1 = (2 * (j * 2 ^ e) : ℕ) := by rw [← heven]; push_cast; rfl
  have hsq (i : ℕ) : (2 * i) ^ 2 = 4 * (i * i) := by ring
  have hle := le_mul_self_iff_stickyRoot n (j * 2 ^ e)
  have hge := mul_self_le_iff_stickyRoot n (j * 2 ^ e)
  rw [hreal, hunit, two_mul_sqrt_le_iff, le_two_mul_sqrt_iff, hsq]
  exact ⟨by omega, by omega⟩

/-- A root is too small to round to infinity. -/
theorem roundLow_sqrt_lt {n : ℕ} (hlo : 2 ^ 106 ≤ n) (hhi : n < (2 ^ 2044) ^ 2) :
    roundLow (stickyRoot n) 1 < F64.infinityLow := by
  have hroot : Real.sqrt n < 2 ^ 2044 := by
    rw [Real.sqrt_lt' (by positivity)]
    exact_mod_cast hhi
  by_contra hge
  have := (infinityLow_le_iff (nearestLow_roundLow (roundsLike_sqrt hlo))).mp (not_lt.mp hge)
  generalize (2 : ℝ) ^ 2044 = p at *
  have := Real.sqrt_nonneg n
  linarith

/-- Low bits nearest to a root are a pattern nearest to it. -/
theorem nearestRoot_of_nearestLow {n : ℕ} {r : F64} (hfin : r.isFinite = true) (hsign : r.sign = false)
    (h : NearestLow (Real.sqrt n) r.low) : NearestRoot n r := by
  have hr : r.units = unitsOfLow r.low := by rw [F64.units_eq, hsign]; rfl
  refine ⟨hfin, by omega, fun c _ hc => ?_⟩
  have hcu : c.units = unitsOfLow c.low := by
    rw [← abs_signed c.sign, ← F64.units_eq, abs_of_nonneg hc]
  obtain ⟨hlt, hgt, htie⟩ := h c.low
  rw [← Nat.cast_add, two_mul_sqrt_le_iff] at hlt
  rw [← Nat.cast_add, le_two_mul_sqrt_iff] at hgt
  rw [← Nat.cast_add] at htie
  rw [hr, hcu, F64.fraction_eq]
  refine ⟨fun hu => ?_, fun hu => ?_, fun hne heq => ?_⟩
  · exact_mod_cast hlt (unitsOfLow_strictMono.lt_iff_lt.mp (Int.ofNat_lt.mp hu))
  · exact_mod_cast hgt (unitsOfLow_strictMono.lt_iff_lt.mp (Int.ofNat_lt.mp hu))
  · have hmid : (unitsOfLow r.low + unitsOfLow c.low) ^ 2 = 4 * n := by exact_mod_cast heq
    have := htie (fun hlow => hne (by rw [hlow]))
      (le_antisymm ((le_two_mul_sqrt_iff _ _).mpr hmid.le) ((two_mul_sqrt_le_iff _ _).mpr hmid.ge))
    omega

/-! fsqrt. -/

theorem fsqrt_of_positive (nan : F64) {a : F64} (hf : a.isFinite = true) (hz : a.isZero = false) (hs : a.sign = false) :
    fsqrt nan a = roundTo false (stickyRoot (a.magnitude * 2 ^ 1074)) 1 := by
  simp only [fsqrt, F64.isNaN_eq_false_of_isFinite hf, F64.isInf_eq_false_of_isFinite hf, hz, hs, isqrt_eq_sqrt,
    stickyRoot, Bool.false_eq_true, if_false]

theorem two_pow_le_mul {m j k : ℕ} (hm : 0 < m) (hjk : j ≤ k) : 2 ^ j ≤ m * 2 ^ k :=
  le_trans (Nat.pow_le_pow_right two_pos hjk) (Nat.le_mul_of_pos_left _ hm)

theorem mul_two_pow_lt_sq {m j k : ℕ} (hm : m < 2 ^ 54 * 2 ^ k) (hjk : 54 + j ≤ k) : m * 2 ^ j < (2 ^ k) ^ 2 := by
  refine lt_of_lt_of_le (Nat.mul_lt_mul_of_pos_right hm (Nat.two_pow_pos j)) ?_
  rw [← Nat.pow_add, ← Nat.pow_add, ← Nat.pow_mul]
  exact Nat.pow_le_pow_right two_pos (by omega)

/-- The operand of a root is great enough for the root to have more bits than a significand, and small enough for the
root not to overflow. -/
theorem sqrtOperand_bounds {a : F64} (hf : a.isFinite = true) (hz : a.isZero = false) :
    2 ^ 106 ≤ a.magnitude * 2 ^ 1074 ∧ a.magnitude * 2 ^ 1074 < (2 ^ 2044) ^ 2 := by
  have hpos : 0 < a.magnitude := by
    rw [← Bool.not_eq_true, F64.isZero_iff] at hz
    rw [F64.magnitude_eq, ← unitsOfLow_zero]
    exact unitsOfLow_strictMono (Nat.pos_of_ne_zero hz)
  have hlt : a.magnitude < 2 ^ 54 * 2 ^ 2044 := by
    rw [F64.magnitude_eq, ← unitsOfLow_infinityLow]
    exact unitsOfLow_strictMono ((F64.isFinite_iff a).mp hf)
  constructor
  · exact two_pow_le_mul hpos (by omega)
  · exact mul_two_pow_lt_sq hlt (by omega)

theorem nearestRoot_fsqrt (nan : F64) {a : F64} (hf : a.isFinite = true) (hz : a.isZero = false) (hs : a.sign = false) :
    NearestRoot (a.magnitude * 2 ^ 1074) (fsqrt nan a) := by
  rw [fsqrt_of_positive nan hf hz hs]
  obtain ⟨hlo, hhi⟩ := sqrtOperand_bounds hf hz
  generalize a.magnitude * 2 ^ 1074 = n at hlo hhi ⊢
  have hnear := nearestLow_roundLow (roundsLike_sqrt hlo)
  have hlt := roundLow_sqrt_lt hlo hhi
  have hlow : (roundTo false (stickyRoot n) 1).low = roundLow (stickyRoot n) 1 := by
    rw [low_roundTo, Nat.min_eq_left hlt.le]
  refine nearestRoot_of_nearestLow ((F64.isFinite_iff _).mpr ?_) (sign_roundTo _ _ _) ?_
  · rwa [hlow]
  · rwa [hlow]

end Sys2Proof.Machine
end

section
/-! PROOFS. Sums, differences, products and roots of finite operands are rounded (spec/00_scope.md R23). -/

namespace Sys2Proof.Machine

theorem roundsTo_fadd (nan : F64) {a b : F64} (ha : a.isFinite = true) (hb : b.isFinite = true) :
    RoundsTo (a.units + b.units) 1 (fadd nan a b) := by
  rw [fadd_of_isFinite nan ha hb]
  split_ifs with h
  · have := roundsTo_roundTo (a.sign && b.sign) 0 0
    rwa [signed_zero, ← h] at this
  · have := roundsTo_roundTo (decide (a.units + b.units < 0)) (a.units + b.units).natAbs 0
    rwa [signed_natAbs] at this

theorem roundsTo_fsub (nan : F64) {a b : F64} (ha : a.isFinite = true) (hb : b.isFinite = true) :
    RoundsTo (a.units - b.units) 1 (fsub nan a b) := by
  rw [Int.sub_eq_add_neg, ← F64.units_fneg]
  exact roundsTo_fadd nan ha (by rwa [F64.isFinite_fneg])

theorem roundsTo_fmul (nan : F64) {a b : F64} (ha : a.isFinite = true) (hb : b.isFinite = true) :
    RoundsTo (a.units * b.units) (2 ^ 1074) (fmul nan a b) := by
  rw [fmul_of_isFinite nan ha hb, F64.units_eq, F64.units_eq, signed_mul_signed, ← F64.magnitude_eq, ← F64.magnitude_eq]
  exact roundsTo_roundTo _ _ 1074

/-- Settles O57: one rounding of the exact result, whose operands' classes decide the rest. -/
theorem arithmeticRoundsToNearestEven : Obligations.ArithmeticRoundsToNearestEven := by
  intro nan a b signedInfinity
  refine ⟨fun ha hb => ⟨roundsTo_fadd nan ha hb, roundsTo_fsub nan ha hb, roundsTo_fmul nan ha hb,
      fadd_of_units_eq_zero nan ha hb, fsub_of_units_eq_zero nan ha hb, ?_⟩,
    fun h => ⟨fadd_of_isNaN nan h, fsub_of_isNaN nan h, fmul_of_isNaN nan h⟩,
    fun ha hb => ⟨fadd_of_isInf_of_isFinite nan ha hb, fsub_of_isInf_of_isFinite nan ha hb⟩,
    fun ha hb => ⟨fadd_of_isFinite_of_isInf nan ha hb, fsub_of_isFinite_of_isInf nan ha hb⟩,
    fun ha hb => ⟨fadd_of_isInf_of_isInf nan ha hb, fsub_of_isInf_of_isInf nan ha hb⟩,
    fmul_of_isInf nan, fsqrt_of_isNaN nan, fsqrt_of_isZero nan, fsqrt_of_negative nan, fsqrt_plusInfinity nan,
    nearestRoot_fsqrt nan⟩
  rw [fmul_of_isFinite nan ha hb, sign_roundTo]

end Sys2Proof.Machine
end

section
/-! PROOFS. SplitMix64's mix is injective (spec/40_engine_cores.md R132): a right xor-shift and a product by an odd
constant can each be undone. -/

namespace Sys2Proof.Machine

theorem eq_zero_of_eq_ushiftRight {x : Word} {k : Nat} (hk : 0 < k) (h : x = x >>> k) : x = 0 := by
  have hdiv : x.toNat = x.toNat / 2 ^ k := by
    conv_lhs => rw [h]
    rw [BitVec.toNat_ushiftRight, Nat.shiftRight_eq_div_pow]
  refine BitVec.eq_of_toNat_eq (by_contra fun hne => ?_)
  have hlt := Nat.div_lt_self (Nat.pos_of_ne_zero hne) (Nat.one_lt_two_pow hk.ne')
  omega

theorem xsr64_injective {k : Nat} (hk : 0 < k) : Function.Injective (xsr64 · k) := by
  intro x y h
  refine BitVec.xor_eq_zero_iff.mp (eq_zero_of_eq_ushiftRight hk (BitVec.xor_eq_zero_iff.mp ?_))
  have hxy : xsr64 x k ^^^ xsr64 y k = 0#64 := BitVec.xor_eq_zero_iff.mpr h
  rw [BitVec.ushiftRight_xor_distrib, ← hxy, xsr64, xsr64]
  ac_rfl

/-- A factor with an inverse modulo 2^64 can be cancelled. -/
theorem mul_injective_of_inverse {c c' : Word} (hc : c * c' = 1) : Function.Injective (· * c) :=
  (IsUnit.of_mul_eq_one c' hc).mul_left_injective

theorem smMix_injective : Function.Injective smMix := by
  have hodd1 := mul_injective_of_inverse (c := 0xBF58476D1CE4E5B9#64) (c' := 0x96DE1B173F119089#64) (by decide)
  have hodd2 := mul_injective_of_inverse (c := 0x94D049BB133111EB#64) (c' := 0x319642B2D24D8EC3#64) (by decide)
  exact (xsr64_injective (by decide)).comp (hodd2.comp ((xsr64_injective (by decide)).comp
    (hodd1.comp (xsr64_injective (by decide)))))

end Sys2Proof.Machine
end

section
/-! PROOFS. Xoshiro256** (spec/40_engine_cores.md R140, R141) and the zero state. -/

namespace Sys2Proof.Machine

theorem rotl64_eq_zero {x : Word} {k : Nat} (hk : k < 64) (h : rotl64 x k = 0) : x = 0 := by
  obtain ⟨hlow, hhigh⟩ := BitVec.or_eq_zero_iff.mp h
  refine BitVec.eq_of_getLsbD_eq fun i hi => ?_
  by_cases hik : i + k < 64
  · have := congrArg (·.getLsbD (i + k)) hlow
    simpa [hik, BitVec.getLsbD_eq_getElem hi] using this
  · have := congrArg (·.getLsbD (i - (64 - k))) hhigh
    simpa [show 64 - k + (i - (64 - k)) = i by omega] using this

theorem eq_zero_of_eq_shiftLeft_17 {x : Word} (h : x = x <<< 17) : x = 0 := by
  have hlt := x.isLt
  have hmod : x.toNat = x.toNat * 2 ^ 17 % 2 ^ 64 := by
    conv_lhs => rw [h]
    rw [BitVec.toNat_shiftLeft, Nat.shiftLeft_eq]
  exact BitVec.eq_of_toNat_eq (by simp; omega)

/-- The update of R140 can be undone at the zero state: the last word gives s3 = s1, the first s0 = 0, the second
s1 = s2, and the third s2 = s1 << 17. -/
theorem eq_zero_of_xsNext64_eq_zero {x : Xoshiro} (h : (xsNext64 x).2 = ⟨0, 0, 0, 0⟩) : x = ⟨0, 0, 0, 0⟩ := by
  obtain ⟨s0, s1, s2, s3⟩ := x
  simp only [xsNext64, Xoshiro.mk.injEq] at h
  obtain ⟨h0, h1, h2, h3⟩ := h
  obtain rfl : s3 = s1 := BitVec.xor_eq_zero_iff.mp (rotl64_eq_zero (by decide) h3)
  obtain rfl : s0 = 0 := by simpa using h0
  obtain rfl : s3 = s2 := by simpa using BitVec.xor_eq_zero_iff.mp h1
  obtain rfl : s3 = 0 := eq_zero_of_eq_shiftLeft_17 (by simpa using BitVec.xor_eq_zero_iff.mp h2)
  rfl

theorem engineOk_xs_iff (x : Xoshiro) : EngineOk (.xs x) ↔ x ≠ ⟨0, 0, 0, 0⟩ := by
  rw [EngineOk, ne_eq, Xoshiro.mk.injEq]

theorem engineOk_xsNext64 {x : Xoshiro} (h : EngineOk (.xs x)) : EngineOk (.xs (xsNext64 x).2) := by
  rw [engineOk_xs_iff] at h ⊢
  exact fun hzero => h (eq_zero_of_xsNext64_eq_zero hzero)

/-- Two consecutive SplitMix64 outputs differ, so the first two words of a seed are not both 0. -/
theorem engineOk_xsSeed (seed : Word) : EngineOk (.xs (xsSeed seed)) := by
  rintro ⟨h0, h1, -, -⟩
  have hstates : seed + gamma = seed + gamma + gamma := smMix_injective (h0.trans h1.symm)
  have hgamma : gamma = 0 := by simpa using hstates
  exact absurd hgamma (by decide)

/-- Settles O47: the update is undone at the zero state, and the mix of SplitMix64 is injective. -/
theorem xoshiroStateNeverAllZero : Obligations.XoshiroStateNeverAllZero :=
  ⟨fun _ h => engineOk_xsNext64 h, engineOk_xsSeed⟩

end Sys2Proof.Machine
end

section
/-! PROOFS. The CMWC engine (spec/40_engine_cores.md R165 to R168): its table keeps its size, its index stays in the
table, and its carry stays below the bound. -/

namespace Sys2Proof.Machine

/-- T = 18782 * Q[ci] + c in 64 bits, which is exact: T < 2^64. -/
theorem toNat_cmwcProduct (q c : Word32) :
    (18782#64 * zext64 q + zext64 c).toNat = 18782 * q.toNat + c.toNat := by
  have hq := q.isLt
  have hc := c.isLt
  simp only [zext64, BitVec.toNat_add, BitVec.toNat_mul, BitVec.toNat_setWidth, BitVec.toNat_ofNat]
  omega

theorem toNat_hi32 (x : Word) : (hi32 x).toNat = x.toNat / 2 ^ 32 := by
  have := x.isLt
  rw [hi32, BitVec.extractLsb'_toNat, Nat.shiftRight_eq_div_pow, Nat.mod_eq_of_lt (by omega)]

theorem toNat_lo32 (x : Word) : (lo32 x).toNat = x.toNat % 2 ^ 32 := by
  rw [lo32, BitVec.extractLsb'_toNat, Nat.shiftRight_zero]

/-- R167: the high word of T is at most 18782, and where it is 18782 the low word is at most c - 18782. -/
theorem cmwcProduct_bounds {q c : Nat} (hq : q < 2 ^ 32) (hc : c < 2 ^ 32) :
    (18782 * q + c) / 2 ^ 32 ≤ 18782 ∧
      ((18782 * q + c) / 2 ^ 32 = 18782 → (18782 * q + c) % 2 ^ 32 + 18782 ≤ c) := by
  omega

/-- R167: a high word of 18782 leaves a low word too small for the correction to add to it. -/
theorem cmwcNext32_carry_le (k : Cmwc) : (cmwcNext32 k).2.c.toNat ≤ 18782 := by
  generalize hentry : k.q.getD ((k.ci + 1) &&& (k.n - 1)) 0 = q
  have hT := toNat_cmwcProduct q k.c
  have hhi := toNat_hi32 (18782#64 * zext64 q + zext64 k.c)
  have hlo := toNat_lo32 (18782#64 * zext64 q + zext64 k.c)
  obtain ⟨hle, htop⟩ := cmwcProduct_bounds q.isLt k.c.isLt
  rw [← hT, ← hhi] at hle
  rw [← hT, ← hhi, ← hlo] at htop
  have hc := k.c.isLt
  simp only [cmwcNext32, hentry]
  split
  · rename_i hfires
    have hone : (1 : Word32).toNat = 1 := rfl
    rw [BitVec.lt_def, BitVec.toNat_add] at hfires
    rw [BitVec.toNat_add, hone]
    rcases hle.eq_or_lt with heq | hlt
    · have := htop heq
      omega
    · rw [Nat.mod_eq_of_lt (by omega)]
      exact hlt
  · exact hle

theorem engineOk_cmwcNext32 {k : Cmwc} (h : EngineOk (.cmwc k)) : EngineOk (.cmwc (cmwcNext32 k).2) := by
  obtain ⟨hsize, hlen, hci, -⟩ := h
  refine ⟨hsize, ?_, ?_, ?_⟩
  · exact List.length_set.trans hlen
  · have hle : (k.ci + 1) &&& (k.n - 1) ≤ k.n - 1 := Nat.and_le_right
    show (k.ci + 1) &&& (k.n - 1) < k.n
    omega
  · exact (cmwcNext32_carry_le k).trans_lt (by decide)

@[simp] theorem smAfter_zero (t : Word) : smAfter 0 t = t := by
  simp [smAfter]

/-- The cycles that R208 accepts are the table sizes of R44. -/
theorem cmwcSize_of_cmwcCycleOk {cycle : Word} (h : cmwcCycleOk cycle = true) : CmwcSize cycle.toNat := by
  simp only [cmwcCycleOk, Bool.and_eq_true, decide_eq_true_eq, beq_iff_eq] at h
  obtain ⟨⟨hmin, hand⟩, hmax⟩ := h
  have hne : cycle.toNat ≠ 0 := by
    rw [Config.cmwcMinCycle] at hmin
    omega
  have hpow : cycle.toNat.isPowerOfTwo := by
    rw [← Nat.and_sub_one_eq_zero_iff_isPowerOfTwo hne]
    have := congrArg BitVec.toNat hand
    rwa [BitVec.toNat_and, BitVec.toNat_sub_of_le (by bv_omega)] at this
  obtain ⟨e, he⟩ := hpow
  rw [he] at hmin hmax
  exact ⟨e, (Nat.pow_le_pow_iff_right (a := 2) (by decide)).mp hmin,
    (Nat.pow_le_pow_iff_right (a := 2) (by decide)).mp hmax, he⟩

/-- The carry draws end at the first word below the bound, if the loop reaches one (R168). -/
theorem cmwcCarry_lt {k j : Nat} {t : Word} (hjk : j ≤ k)
    (hj : hi32 (smNext64 (smAfter j t)).1 < Config.cmwcCarryBound) : cmwcCarry k t < Config.cmwcCarryBound := by
  induction k generalizing j t with
  | zero =>
    obtain rfl : j = 0 := by omega
    rwa [smAfter_zero] at hj
  | succ k ih =>
    rw [cmwcCarry]
    split_ifs with hlt
    · exact hlt
    · cases j with
      | zero => exact absurd (by rwa [smAfter_zero] at hj) hlt
      | succ j => exact ih (j := j) (by omega) (by rwa [← smAfter_succ])

/-- Some output of SplitMix64 is 0, as SM_MIX(0) = 0 and GAMMA is odd (R135): -(t + GAMMA) / GAMMA steps on from t. -/
theorem exists_smNext64_eq_zero (t : Word) : ∃ j : Word, (smNext64 (smAfter j.toNat t)).1 = 0 := by
  have hcancel : ∀ c, t + -(t + c) * 1 + c = 0 := fun c => by bv_omega
  have hinv : 0xF1DE83E19937733D#64 * gamma = 1 := by decide
  refine ⟨-(t + gamma) * 0xF1DE83E19937733D#64, ?_⟩
  have hzero : t + -(t + gamma) * 0xF1DE83E19937733D#64 * gamma + gamma = 0 := by
    rw [BitVec.mul_assoc, hinv, hcancel]
  rw [smNext64, smAfter, BitVec.ofNat_toNat, BitVec.setWidth_eq, hzero]
  decide

/-- The bound of log entry 11 is enough redraws. -/
theorem cmwcCarry_lt_of_two_pow_le {k : Nat} (hk : 2 ^ 64 ≤ k) (t : Word) :
    cmwcCarry k t < Config.cmwcCarryBound := by
  obtain ⟨j, hzero⟩ := exists_smNext64_eq_zero t
  exact cmwcCarry_lt (j.isLt.le.trans hk) (by rw [hzero]; decide)

theorem carry_cmwcInit_lt (seed : Word) (n : Nat) : (cmwcInit seed n).c < Config.cmwcCarryBound := by
  rw [cmwcInit]
  exact cmwcCarry_lt_of_two_pow_le le_rfl _

theorem engineOk_cmwcInit (seed : Word) {n : Nat} (h : CmwcSize n) : EngineOk (.cmwc (cmwcInit seed n)) := by
  have hpos : 0 < n := by
    obtain ⟨e, -, -, rfl⟩ := h
    exact Nat.two_pow_pos e
  exact ⟨h, smExpand32_length seed n, Nat.sub_one_lt_of_lt hpos, BitVec.lt_def.mp (carry_cmwcInit_lt seed n)⟩

end Sys2Proof.Machine
end

section
/-! PROOFS. The constant words of the ChaCha input (spec/40_engine_cores.md R182): no draw changes them. -/

namespace Sys2Proof.Machine

/-- A draw changes no input word but the two of the block counter (R184, R185). -/
theorem inp_ccNext32 (k : ChaCha) {i : Nat} (hi : i < 12) : (ccNext32 k).2.inp[i] = k.inp[i] := by
  rw [ccNext32]
  split
  · rfl
  · simp only [ccBlock]
    rw [Vector.getElem_set_ne _ _ (by omega), Vector.getElem_set_ne _ _ (by omega)]

theorem engineOk_ccNext32 {k : ChaCha} (h : EngineOk (.cc k)) : EngineOk (.cc (ccNext32 k).2) := by
  obtain ⟨h0, h1, h2, h3, hpad⟩ := h
  refine ⟨?_, ?_, ?_, ?_, fun j => ?_⟩
  · rwa [inp_ccNext32 k (by decide)]
  · rwa [inp_ccNext32 k (by decide)]
  · rwa [inp_ccNext32 k (by decide)]
  · rwa [inp_ccNext32 k (by decide)]
  · rw [inp_ccNext32 k (by omega), hpad j]

theorem engineOk_ccInit (blk : Fin 16 → Word32) (seed stream : Word) :
    EngineOk (.cc (ccInit Config.chachaPad blk seed stream)) := by
  refine ⟨rfl, rfl, rfl, rfl, fun j => ?_⟩
  fin_cases j <;> rfl

end Sys2Proof.Machine
end

section
/-! PROOFS. Every draw keeps the invariant of its engine (spec/10_state.md R41 to R45). -/

namespace Sys2Proof.Machine

/-- The increment is never written after seeding (R163). -/
theorem engineOk_pcgNext32 {p : Pcg} (h : EngineOk (.pcg p)) : EngineOk (.pcg (pcgNext32 p).2) := by
  obtain ⟨pst, pinc⟩ := p
  have hodd : pinc.getLsbD 0 = true := h
  exact hodd

theorem engineOk_pcgInit (seed : Word) {inc : Word} (h : inc.getLsbD 0 = true) : EngineOk (.pcg (pcgInit seed inc)) := h

theorem engineOk_native {g : Engine} (h : EngineOk g) : EngineOk (native g).2 := by
  cases g with
  | sm _ => exact True.intro
  | xs _ => exact engineOk_xsNext64 h
  | mt _ => exact True.intro
  | pcg _ => exact engineOk_pcgNext32 h
  | cmwc _ => exact engineOk_cmwcNext32 h
  | cc _ => exact engineOk_ccNext32 h

theorem engineOk_draw64 {g : Engine} (h : EngineOk g) : EngineOk (draw64 g).2 := by
  rw [draw64]
  split
  · exact engineOk_native h
  · exact engineOk_native (engineOk_native h)

theorem engineOk_draw32 {g : Engine} (h : EngineOk g) : EngineOk (draw32 g).2 := by
  rw [draw32]
  split <;> exact engineOk_native h

theorem engineOk_fillBytes (n a len : Nat) {g : Engine} (m : Memory) (h : EngineOk g) :
    EngineOk (fillBytes n a len g m).1 := by
  induction n generalizing a len g m with
  | zero => exact h
  | succ n ih => exact ih _ _ _ (engineOk_draw64 h)

theorem engineOk_shuffleFrom (b i : Nat) {g : Engine} (m : Memory) (h : EngineOk g) :
    EngineOk (shuffleFrom b i g m).1 := by
  induction i generalizing g m with
  | zero => exact h
  | succ i ih => exact ih _ (engineOk_draw64 h)

end Sys2Proof.Machine
end

section
/-! PROOFS. Everything a command can answer (spec/60_exceptions.md R304, R305; spec/10_state.md R32, R33, R39), said once
for all twenty-one commands: it raises, or it completes with the slot's new engine, RES, BUF and CODE. -/

namespace Sys2Proof.Machine

/-- What a completing command i may write from state s: the slot's engine g, RES[0], RES[1] and BUF. -/
structure MayWrite (i : Instr) (s : State) (g : Engine) (r0 r1 : Word) (m : Memory) : Prop where
  engine : (∀ g', s.slot i.slot = some g' → EngineOk g') → EngineOk g
  res0 : ¬WritesRes0 i → r0 = s.res0
  res1 : (∀ k, i ≠ .nextPolar k) → r1 = s.res1
  buf : (∀ k, i ≠ .nextBytes k) → (∀ k, i ≠ .shuffle k) → m = s.buf
  epoch : m.epoch = s.buf.epoch
  wf : s.buf.wf = true → m.wf = true

/-- The state after a command that completes (R305); n counts the free values taken. -/
def completedState (i : Instr) (g : Engine) (r0 r1 : Word) (m : Memory) (n : Nat) (s : State) : State :=
  { s.setSlot i.slot g with res0 := r0, res1 := r1, code := .ok, buf := m, fresh := n }

/-- The outcomes that command i may have from state s. -/
inductive Answers (i : Instr) (s : State) : Host.Outcome State Fault Refusal → Prop
  | raised (e : ErrorCode) (he : e ≠ .ok) : Answers i s (.next (raise e (encode i) s))
  | completed {g : Engine} {r0 r1 : Word} {m : Memory} (n : Nat) (h : MayWrite i s g r0 r1 m) :
      Answers i s (.next (completedState i g r0 r1 m n s))

theorem answers_raiseFor (i : Instr) (s : State) {e : ErrorCode} (he : e ≠ .ok) : Answers i s (raiseFor e i s) :=
  .raised e he

theorem answers_onEngine {i : Instr} {s : State} {k : Engine → Host.Outcome State Fault Refusal}
    (h : ∀ g, s.slot i.slot = some g → Answers i s (k g)) : Answers i s (onEngine i s k) := by
  cases hg : s.slot i.slot with
  | none =>
    rw [onEngine_empty hg]
    exact .raised _ (by decide)
  | some g =>
    rw [onEngine_some hg]
    exact h g hg

theorem answers_ite {i : Instr} {s : State} {c : Prop} [Decidable c] {x y : Host.Outcome State Fault Refusal}
    (hx : Answers i s x) (hy : Answers i s y) : Answers i s (if c then x else y) := by
  split
  · exact hx
  · exact hy

theorem takeSeed_state (e : Bool) (s : State) : ∃ n, (takeSeed e s).2 = { s with fresh := n } := by
  cases e with
  | false => exact ⟨s.fresh, rfl⟩
  | true => exact ⟨s.fresh + 1, rfl⟩

theorem answers_configure {i : Instr} {s s' : State} {g : Engine} (v : Word) (hg : EngineOk g)
    (hs : ∃ n, s' = { s with fresh := n }) : Answers i s (configure i g v s') := by
  obtain ⟨n, rfl⟩ := hs
  refine .completed n ⟨fun _ => hg, fun hw => ?_, fun _ => rfl, fun _ _ => rfl, rfl, id⟩
  exact if_neg fun he => hw (.inl he)

/-- A drawing command that writes RES[0], or both RES registers. -/
theorem answers_completeWith {i : Instr} {s : State} {g : Engine} (r0 r1 : Word) (n : Nat)
    (hg : (∀ g', s.slot i.slot = some g' → EngineOk g') → EngineOk g) (h0 : WritesRes0 i)
    (h1 : (∀ k, i ≠ .nextPolar k) → r1 = s.res1) :
    Answers i s (completeWith i g r0 { s with res1 := r1, fresh := n }) :=
  .completed n ⟨hg, fun hw => absurd h0 hw, h1, fun _ _ => rfl, rfl, id⟩

/-- A drawing command that stores in BUF. -/
theorem answers_store {i : Instr} {s : State} {g : Engine} {m : Memory}
    (hg : (∀ g', s.slot i.slot = some g' → EngineOk g') → EngineOk g)
    (hi : i = .nextBytes i.slot ∨ i = .shuffle i.slot) (hepoch : m.epoch = s.buf.epoch)
    (hwf : s.buf.wf = true → m.wf = true) : Answers i s (complete { s.setSlot i.slot g with buf := m }) := by
  refine .completed s.fresh ⟨hg, fun _ => rfl, fun _ => rfl, fun hb hs => ?_, hepoch, hwf⟩
  rcases hi with h | h
  · exact absurd h (hb _)
  · exact absurd h (hs _)

@[simp] theorem fillBytes_epoch (n a len : Nat) (g : Engine) (m : Memory) :
    (fillBytes n a len g m).2.epoch = m.epoch := by
  induction n generalizing a len g m with
  | zero => rfl
  | succ n ih => rw [fillBytes, ih, memWrite_epoch]

@[simp] theorem shuffleFrom_epoch (b i : Nat) (g : Engine) (m : Memory) :
    (shuffleFrom b i g m).2.epoch = m.epoch := by
  induction i generalizing g m with
  | zero => rfl
  | succ i ih => rw [shuffleFrom, ih, swapElements, memWrite_epoch, memWrite_epoch]

/-- A command that makes one 64-bit draw and writes RES[0]. -/
theorem answers_oneDraw {i : Instr} {s : State} {g : Engine} (hg : s.slot i.slot = some g) (r : Word) (n : Nat)
    (h0 : WritesRes0 i) : Answers i s (completeWith i (draw64 g).2 r { s with fresh := n }) :=
  answers_completeWith r s.res1 n (fun hok => engineOk_draw64 (hok g hg)) h0 fun _ => rfl

theorem writesRes0_of_op {i : Instr} (op : BitVec 8) (h : i.op = op)
    (hop : (0x10 ≤ op.toNat ∧ op.toNat ≤ 0x13) ∨ (0x20 ≤ op.toNat ∧ op.toNat ≠ 0x27)) : WritesRes0 i :=
  .inr (h ▸ hop)

theorem exec_answers (i : Instr) (s : State) : Answers i s (exec i s) := by
  cases i with
  | cfgSm slot e => exact answers_configure _ True.intro (takeSeed_state e s)
  | cfgXs slot e => exact answers_configure _ (engineOk_xsSeed _) (takeSeed_state e s)
  | cfgXss slot =>
    rw [exec, execCfgXss]
    split_ifs with hzero
    · exact answers_raiseFor _ s (by decide)
    · exact .completed s.fresh ⟨fun _ => hzero, fun _ => rfl, fun _ => rfl, fun _ _ => rfl, rfl, id⟩
  | cfgMt slot e => exact answers_configure _ True.intro (takeSeed_state e s)
  | cfgPcg slot e d =>
    rw [exec, execCfgPcg]
    split_ifs with hodd
    · exact answers_raiseFor _ s (by decide)
    · exact answers_configure _ (engineOk_pcgInit _ (by simpa using hodd)) (takeSeed_state e s)
  | cfgCmwc slot e d =>
    rw [exec, execCfgCmwc]
    split_ifs with hcycle
    · exact answers_raiseFor _ s (by decide)
    · exact answers_configure _ (engineOk_cmwcInit _ (cmwcSize_of_cmwcCycleOk (by simpa using hcycle)))
        (takeSeed_state e s)
  | cfgCc slot e d =>
    obtain ⟨n, hn⟩ := takeSeed_state e s
    exact answers_configure _ (engineOk_ccInit _ _ _) ⟨(takeSeed e s).2.fresh + 1, by rw [hn]⟩
  | next64 slot => exact answers_onEngine fun g hg => answers_oneDraw hg _ s.fresh (writesRes0_of_op 0x10 rfl (by decide))
  | next32 slot =>
    exact answers_onEngine fun g hg =>
      answers_completeWith _ s.res1 s.fresh (fun hok => engineOk_draw32 (hok g hg))
        (writesRes0_of_op 0x11 rfl (by decide)) fun _ => rfl
  | nextDbl slot => exact answers_onEngine fun g hg => answers_oneDraw hg _ s.fresh (writesRes0_of_op 0x12 rfl (by decide))
  | nextInt slot =>
    exact answers_onEngine fun g hg =>
      answers_ite (answers_raiseFor _ s (by decide)) (answers_oneDraw hg _ s.fresh (writesRes0_of_op 0x13 rfl (by decide)))
  | nextBytes slot =>
    exact answers_onEngine fun g hg => answers_ite (answers_raiseFor _ s (by decide))
      (answers_store (fun hok => engineOk_fillBytes _ _ _ _ (hok g hg)) (.inl rfl) (fillBytes_epoch _ _ _ _ _)
        (wf_fillBytes _ _ _ _ _))
  | nextPct slot => exact answers_onEngine fun g hg => answers_oneDraw hg _ s.fresh (writesRes0_of_op 0x20 rfl (by decide))
  | gamble slot => exact answers_onEngine fun g hg => answers_oneDraw hg _ s.fresh (writesRes0_of_op 0x21 rfl (by decide))
  | gambleD slot => exact answers_onEngine fun g hg => answers_oneDraw hg _ s.fresh (writesRes0_of_op 0x22 rfl (by decide))
  | nextDRange slot =>
    exact answers_onEngine fun g hg =>
      answers_ite (answers_raiseFor _ s (by decide))
        (answers_oneDraw hg _ (s.fresh + 1) (writesRes0_of_op 0x23 rfl (by decide)))
  | nextBool slot => exact answers_onEngine fun g hg => answers_oneDraw hg _ s.fresh (writesRes0_of_op 0x24 rfl (by decide))
  | nextChar slot => exact answers_onEngine fun g hg => answers_oneDraw hg _ s.fresh (writesRes0_of_op 0x25 rfl (by decide))
  | nextIndex slot =>
    exact answers_onEngine fun g hg =>
      answers_ite (answers_raiseFor _ s (by decide)) (answers_oneDraw hg _ s.fresh (writesRes0_of_op 0x26 rfl (by decide)))
  | shuffle slot =>
    exact answers_onEngine fun g hg => answers_ite (answers_raiseFor _ s (by decide))
      (answers_ite (answers_raiseFor _ s (by decide))
        (answers_store (fun hok => engineOk_shuffleFrom _ _ _ (hok g hg)) (.inr rfl) (shuffleFrom_epoch _ _ _ _)
          (wf_shuffleFrom _ _ _ _)))
  | nextPolar slot =>
    exact answers_onEngine fun g hg =>
      answers_completeWith _ _ (s.fresh + 1) (fun hok => engineOk_draw64 (engineOk_draw64 (hok g hg)))
        (writesRes0_of_op 0x28 rfl (by decide))
        fun h => absurd rfl (h slot)

end Sys2Proof.Machine
end

section
/-! PROOFS. The frame of all commands and the independence of the slots (spec/10_state.md R32, R33, R39). -/

namespace Sys2Proof.Machine

/-- Settles O19: what raising and completing leave unchanged. -/
theorem commandFrame : Obligations.CommandFrame := by
  intro i s t h
  have hanswers := exec_answers i s
  rw [h] at hanswers
  cases hanswers with
  | raised e he => exact ⟨rfl, rfl, rfl, rfl, fun _ _ => rfl, fun _ => rfl, fun _ => rfl, fun _ _ _ => rfl⟩
  | completed n hw =>
    refine ⟨rfl, rfl, rfl, hw.epoch, fun k hk => ?_, hw.res1, hw.res0, fun hb hs a => ?_⟩
    · exact setSlot_slot_other s k i.slot _ hk
    · exact congrArg (·.read a) (hw.buf hb hs)

/-! Another slot's record, carried along. -/

/-- An outcome with slot k holding o in the next state. -/
def carrySlot (k : SlotNum) (o : Option Engine) :
    Host.Outcome State Fault Refusal → Host.Outcome State Fault Refusal
  | .next t => .next (withSlot t k o)
  | .fault r => .fault r
  | .refused r => .refused r

theorem withSlot_slot_other (s : State) {j k : SlotNum} (o : Option Engine) (h : k ≠ j) :
    (withSlot s k o).slot j = s.slot j := by
  have hk : ¬k.toNat = j.toNat := fun e => h (BitVec.eq_of_toNat_eq e)
  simp [State.slot, withSlot, hk]

theorem setSlot_withSlot (s : State) {j k : SlotNum} (g : Engine) (o : Option Engine) (h : k ≠ j) :
    (withSlot s k o).setSlot j g = withSlot (s.setSlot j g) k o := by
  have hk : k.toNat ≠ j.toNat := fun e => h (BitVec.eq_of_toNat_eq e)
  rw [State.setSlot, withSlot, Vector.set_comm _ _ hk]
  rfl

theorem takeSeed_withSlot (e : Bool) (s : State) (k : SlotNum) (o : Option Engine) :
    takeSeed e (withSlot s k o) = ((takeSeed e s).1, withSlot (takeSeed e s).2 k o) := by
  cases e <;> rfl

section
variable {i : Instr} {s : State} {k : SlotNum} {o : Option Engine}

theorem raiseFor_withSlot (e : ErrorCode) : raiseFor e i (withSlot s k o) = carrySlot k o (raiseFor e i s) := rfl

theorem ite_carrySlot {c : Prop} [Decidable c] {x x' y y' : Host.Outcome State Fault Refusal}
    (hx : x' = carrySlot k o x) (hy : y' = carrySlot k o y) :
    (if c then x' else y') = carrySlot k o (if c then x else y) := by
  rw [hx, hy, apply_ite (carrySlot k o)]

variable (h : k ≠ i.slot)
include h

theorem configure_withSlot (g : Engine) (v : Word) :
    configure i g v (withSlot s k o) = carrySlot k o (configure i g v s) := by
  rw [configure_eq, setSlot_withSlot s g o h]
  rfl

theorem completeWith_withSlot (g : Engine) (r : Word) :
    completeWith i g r (withSlot s k o) = carrySlot k o (completeWith i g r s) := by
  rw [completeWith_eq, setSlot_withSlot s g o h]
  rfl

/-- A command that stores in BUF. -/
theorem store_withSlot (g : Engine) (m : Memory) :
    complete { (withSlot s k o).setSlot i.slot g with buf := m } =
      carrySlot k o (complete { s.setSlot i.slot g with buf := m }) := by
  rw [complete_eq, setSlot_withSlot s g o h]
  rfl

theorem onEngine_withSlot {f f' : Engine → Host.Outcome State Fault Refusal} (hf : ∀ g, f' g = carrySlot k o (f g)) :
    onEngine i (withSlot s k o) f' = carrySlot k o (onEngine i s f) := by
  have hslot := withSlot_slot_other s o h
  cases hg : s.slot i.slot with
  | none =>
    rw [onEngine_empty hg, onEngine_empty (hslot.trans hg)]
    rfl
  | some g => rw [onEngine_some hg, onEngine_some (hslot.trans hg), hf]

end

theorem exec_withSlot {i : Instr} {k : SlotNum} (h : k ≠ i.slot) (s : State) (o : Option Engine) :
    exec i (withSlot s k o) = carrySlot k o (exec i s) := by
  cases i with
  | cfgSm slot e =>
    simp only [exec, execCfgSm, takeSeed_withSlot]
    exact configure_withSlot h _ _
  | cfgXs slot e =>
    simp only [exec, execCfgXs, takeSeed_withSlot]
    exact configure_withSlot h _ _
  | cfgXss slot =>
    refine ite_carrySlot rfl ?_
    exact congrArg complete (setSlot_withSlot s _ o h)
  | cfgMt slot e =>
    simp only [exec, execCfgMt, takeSeed_withSlot]
    exact configure_withSlot h _ _
  | cfgPcg slot e d =>
    simp only [exec, execCfgPcg, takeSeed_withSlot]
    exact ite_carrySlot rfl (configure_withSlot h _ _)
  | cfgCmwc slot e d =>
    simp only [exec, execCfgCmwc, takeSeed_withSlot]
    exact ite_carrySlot rfl (configure_withSlot h _ _)
  | cfgCc slot e d =>
    simp only [exec, execCfgCc, takeSeed_withSlot]
    exact configure_withSlot (s := { (takeSeed e s).2 with fresh := (takeSeed e s).2.fresh + 1 }) h _ _
  | next64 slot => exact onEngine_withSlot h fun g => completeWith_withSlot h _ _
  | next32 slot => exact onEngine_withSlot h fun g => completeWith_withSlot h _ _
  | nextDbl slot => exact onEngine_withSlot h fun g => completeWith_withSlot h _ _
  | nextInt slot => exact onEngine_withSlot h fun g => ite_carrySlot rfl (completeWith_withSlot h _ _)
  | nextBytes slot => exact onEngine_withSlot h fun g => ite_carrySlot rfl (store_withSlot h _ _)
  | nextPct slot => exact onEngine_withSlot h fun g => completeWith_withSlot h _ _
  | gamble slot => exact onEngine_withSlot h fun g => completeWith_withSlot h _ _
  | gambleD slot => exact onEngine_withSlot h fun g => completeWith_withSlot h _ _
  | nextDRange slot =>
    exact onEngine_withSlot h fun g =>
      ite_carrySlot rfl (completeWith_withSlot (s := { s with fresh := s.fresh + 1 }) h _ _)
  | nextBool slot => exact onEngine_withSlot h fun g => completeWith_withSlot h _ _
  | nextChar slot => exact onEngine_withSlot h fun g => completeWith_withSlot h _ _
  | nextIndex slot => exact onEngine_withSlot h fun g => ite_carrySlot rfl (completeWith_withSlot h _ _)
  | shuffle slot =>
    exact onEngine_withSlot h fun g => ite_carrySlot rfl (ite_carrySlot rfl (store_withSlot h _ _))
  | nextPolar slot =>
    exact onEngine_withSlot h fun g =>
      completeWith_withSlot (s := { s with res1 := _, fresh := s.fresh + 1 }) h _ _

/-- Settles O20: every shared operation carries another slot's record along. -/
theorem slotsAreIndependent : Obligations.SlotsAreIndependent := by
  intro i s t k o hk h
  rw [exec_withSlot hk, h]
  rfl

end Sys2Proof.Machine
end

section
/-! PROOFS. The invariant of the block (spec/10_state.md R35, R36, R41 to R48), kept by every operation of the host. -/

namespace Sys2Proof.Machine

/-- A record that meets its engine's rules may replace any slot's. -/
theorem engineOk_setSlot {s : State} {k : SlotNum} {g : Engine} (hs : ∀ j g', s.slot j = some g' → EngineOk g')
    (hg : EngineOk g) : ∀ j g', (s.setSlot k g).slot j = some g' → EngineOk g' := by
  intro j g' hj
  by_cases hjk : j = k
  · rw [hjk, setSlot_slot_same, Option.some.injEq] at hj
    exact hj ▸ hg
  · exact hs j g' (setSlot_slot_other s j k g hjk ▸ hj)

theorem inv_raise {s : State} (e : ErrorCode) (w : Word32) (h : Inv s) : Inv (raise e w s) := by
  obtain ⟨hengines, hwf, -⟩ := h
  exact ⟨hengines, hwf, nofun⟩

theorem inv_exec {i : Instr} {s t : State} (hs : Inv s) (h : exec i s = .next t) : Inv t := by
  have hanswers := exec_answers i s
  rw [h] at hanswers
  cases hanswers with
  | raised e he => exact inv_raise e _ hs
  | completed n hw =>
    obtain ⟨hengines, hwf, herror⟩ := hs
    exact ⟨engineOk_setSlot hengines (hw.engine (hengines i.slot)), hw.wf hwf,
      fun hsticky => ⟨rfl, (herror hsticky).2⟩⟩

theorem inv_runWord {w : Word32} {s t : State} (hs : Inv s) (h : runWord w s = .next t) : Inv t := by
  rw [runWord] at h
  split at h
  · exact inv_exec hs h
  · cases h
    exact inv_raise _ _ hs

theorem inv_writeTarget {tg : Target} {v : Word} {s t : State} (hs : Inv s) (h : writeTarget tg v s = .next t) :
    Inv t := by
  cases tg with
  | cmd => exact inv_runWord hs h
  | buf a =>
    cases h
    obtain ⟨hengines, hwf, herror⟩ := hs
    exact ⟨hengines, wf_write _ hwf _ _, herror⟩
  | _ =>
    cases h
    exact hs

theorem inv_applyReset (s : State) : Inv (applyReset s) :=
  ⟨fun k g hk => by simp at hk, rfl, fun _ => ⟨rfl, rfl⟩⟩

/-- Settles O58: by the cases of a step; a command raises, or completes with an engine that meets its rules. -/
theorem invariantKeptByEveryStep : Obligations.InvariantKeptByEveryStep := by
  intro s t hs h
  obtain ⟨-, rfl⟩ | ⟨off, rest, -, rfl⟩ | ⟨off, v, rest, -, hwrite⟩ | ⟨rest, -, rfl⟩ := step_cases h
  · exact hs
  · exact hs
  · exact inv_writeTarget (s := { s with hostOps := rest }) hs hwrite
  · exact inv_applyReset _

/-- Settles O59: every slot is EMPTY, BUF lists nothing, and CODE and ERRCMD are 0. -/
theorem invariantHoldsAtReset : Obligations.InvariantHoldsAtReset :=
  ⟨fun k g hk => by simp at hk, rfl, fun _ => ⟨rfl, rfl⟩⟩

end Sys2Proof.Machine
end

section
/-! PROOFS. The registers as the host reads them (spec/10_state.md R35 to R39), as numbers. -/

namespace Sys2Proof.Machine

/-- STATUS: the code's number, and STICKY in bit 8 (R35). -/
theorem statusReg_eq (s : State) :
    statusReg s = (if s.sticky then 0x100 else 0) ||| (errorNumber s.code).setWidth 64 := by
  rw [statusReg]
  generalize errorNumber s.code = n
  cases s.sticky <;> revert n <;> decide

/-- SLOTINFO: the engine code, and CYCLE_LOG2 from bit 8 on (R38). -/
theorem slotInfoReg_eq (s : State) (k : Fin Config.nslots) :
    slotInfoReg s k = (algCode s.slots[k]).setWidth 64 ||| ((cycleLog2 s.slots[k]).setWidth 64 <<< 8) := by
  rw [slotInfoReg]
  generalize algCode s.slots[k] = alg
  generalize cycleLog2 s.slots[k] = log
  revert alg log
  decide +kernel

theorem capsReg_eq : capsReg = 0x0000000001100C10 := by decide +kernel

theorem cycleLog2_cmwc {q : Cmwc} {e : Nat} (h : q.n = 2 ^ e) : cycleLog2 (some (.cmwc q)) = BitVec.ofNat 5 e := by
  rw [cycleLog2, h, Nat.log2_two_pow]

end Sys2Proof.Machine
end

section
/-! PROOFS. The host's operations one by one: reads, writes, commands and reset (spec/20_memory.md R76, R77, R81;
spec/70_reset_and_hazards.md R340). -/

namespace Sys2Proof.Machine

/-- No target shows what the host has still to do. -/
theorem readTarget_hostOps (s : State) (rest : List PortOp) (tg : Target) :
    readTarget { s with hostOps := rest } tg = readTarget s tg := by
  cases tg <;> rfl

/-- A read of a target that holds v answers v (R76). -/
theorem step_read_of_target {s : State} {off : Fin Config.portSpan} {rest : List PortOp} {tg : Target} {v : Word}
    (h : s.hostOps = .read off :: rest) (htg : portTarget off.val = tg) (hv : readTarget s tg = v) :
    step s = .next { s with hostOps := rest, readData := v } := by
  rw [step_read h, readTarget_hostOps, htg, hv]

/-- A read of STATUS while CODE is e (R35). -/
theorem step_readStatus {s : State} {rest : List PortOp} (h : s.hostOps = .read 0x008 :: rest) {e : ErrorCode}
    (he : s.code = e) :
    step s = .next { s with
      hostOps := rest, readData := (if s.sticky then 0x100 else 0) ||| (errorNumber e).setWidth 64 } :=
  step_read_of_target h portTarget_status (he ▸ statusReg_eq s)

/-- A read of SLOTINFO[k] while slot k holds o (R38). -/
theorem step_readSlotInfo {s : State} {k : Fin Config.nslots} {rest : List PortOp}
    (h : s.hostOps = readSlotInfo k :: rest) {o : Option Engine} (ho : s.slots[k] = o) (alg : BitVec 4) (log : BitVec 5)
    (halg : algCode o = alg) (hlog : cycleLog2 o = log) :
    step s = .next { s with hostOps := rest, readData := alg.setWidth 64 ||| (log.setWidth 64 <<< 8) } := by
  refine step_read_of_target h (portTarget_slotInfo k) ?_
  rw [readTarget, slotInfoReg_eq, ho, halg, hlog]

/-- Settles O8: one target after the other. -/
theorem portReadsReturnTheRegisters : Obligations.PortReadsReturnTheRegisters := by
  intro s rest got
  refine ⟨fun h => step_read_of_target h portTarget_cmd rfl,
    fun h => ⟨step_readStatus h, step_readStatus h, step_readStatus h, step_readStatus h, step_readStatus h,
      step_readStatus h, step_readStatus h⟩,
    fun h => step_read_of_target h portTarget_errcmd rfl,
    fun h => step_read_of_target h portTarget_caps capsReg_eq,
    fun i h => step_read_of_target h (portTarget_arg i) rfl,
    fun h => step_read_of_target h portTarget_res0 rfl,
    fun h => step_read_of_target h portTarget_res1 rfl,
    fun k h => ⟨fun ho => step_readSlotInfo h ho 0 0 rfl rfl, fun _ ho => step_readSlotInfo h ho 1 0 rfl rfl,
      fun _ ho => step_readSlotInfo h ho 2 0 rfl rfl, fun _ ho => step_readSlotInfo h ho 3 0 rfl rfl,
      fun _ ho => step_readSlotInfo h ho 4 0 rfl rfl, fun q e hq hn he => ?_,
      fun _ ho => step_readSlotInfo h ho 6 0 rfl rfl⟩,
    fun a h => step_read_of_target h (portTarget_buf a) rfl⟩
  have hwidth : (BitVec.ofNat 5 e).setWidth 64 = BitVec.ofNat 64 e :=
    BitVec.eq_of_toNat_eq (by simp; omega)
  exact hwidth ▸ step_readSlotInfo h hq 5 (BitVec.ofNat 5 e) rfl (cycleLog2_cmwc hn)

/-- Settles O10: the byte stored is the one the host gave. -/
theorem hostWritesStoreTheValue : Obligations.HostWritesStoreTheValue := by
  intro s rest hwf
  refine ⟨fun i v h => ?_, fun a b h => ⟨s.buf.write a.val b, ?_, wf_write _ hwf _ _, fun x => ?_⟩⟩
  · rw [step_write h, portTarget_arg]
    rfl
  · have hbyte : (b.setWidth 64).extractLsb' 0 8 = b := BitVec.eq_of_toNat_eq (by simp; omega)
    rw [step_write h, portTarget_buf, writeTarget, hbyte]
  · exact read_write s.buf hwf a.val x b a.isLt

theorem step_writeCmd {s : State} {v : Word} {rest : List PortOp} (h : s.hostOps = .write 0x000 v :: rest) :
    step s = runWord (lo32 v) { s with hostOps := rest } := by
  rw [step_write h]
  rfl

theorem runWord_of_decode {w : Word32} {i : Instr} (h : decode w = .ok i) (s : State) : runWord w s = exec i s := by
  rw [runWord, h]

/-- Settles O6: offset 0 is CMD, and a word that decodes runs its command. -/
theorem stepRunsDecodedCommand : Obligations.StepRunsDecodedCommand :=
  fun _ _ _ h => ⟨step_writeCmd h, fun _ hi => (step_writeCmd h).trans (runWord_of_decode hi _)⟩

/-- SLOTINFO of an EMPTY slot reads 0 (R38). -/
theorem slotInfoReg_of_empty {s : State} {k : Fin Config.nslots} (h : s.slots[k] = none) : slotInfoReg s k = 0 := by
  rw [slotInfoReg_eq, h]
  rfl

theorem statusReg_of_clear {s : State} (hcode : s.code = .ok) (hsticky : s.sticky = false) : statusReg s = 0 := by
  rw [statusReg_eq, hcode, hsticky]
  rfl

theorem reset_slots_eq_none (k : Fin Config.nslots) : State.reset.slots[k] = none := by
  revert k; decide

/-- Settles O11: the state is applyReset's, BUF at a new epoch. -/
theorem resetStepLeavesTheResetValues : Obligations.ResetStepLeavesTheResetValues :=
  fun s _ h => ⟨_, step_reset h, rfl, rfl, rfl, statusReg_of_clear rfl rfl, rfl, applyReset_slot _,
    fun k => slotInfoReg_of_empty (reset_slots_eq_none k), fun a => read_empty (s.fresh + 1) a, rfl, rfl⟩

/-- Settles O12: STATUS, CAPS and SLOTINFO by their values as numbers, the fields as State.reset writes them. -/
theorem resetValues : Obligations.ResetValues :=
  ⟨rfl, rfl, rfl, statusReg_of_clear rfl rfl, rfl, capsReg_eq, reset_slot, fun k => slotInfoReg_of_empty (reset_slots_eq_none k), rfl⟩

end Sys2Proof.Machine
end

section
/-! PROOFS. The port map read backwards, and the accesses that do nothing (spec/20_memory.md R77, R78). -/

namespace Sys2Proof.Machine

/-- The offset at which the port map puts a target (R77); a reserved target has no offset of its own. -/
def Target.StandsAt (n : Nat) : Target → Prop
  | .cmd => n = 0x000
  | .status => n = 0x008
  | .errcmd => n = 0x010
  | .caps => n = 0x018
  | .arg i => n = 0x020 + 8 * i.val
  | .res0 => n = 0x040
  | .res1 => n = 0x048
  | .slotInfo k => n = 0x080 + 8 * k.val
  | .buf a => n = 0x1000 + a ∧ a < Config.bufSize
  | .reserved => True

/-- Every branch of the port map answers the target that stands there (R77). -/
theorem portTarget_standsAt (n : Nat) : (portTarget n).StandsAt n := by
  rw [portTarget]
  iterate 10 refine iteInduction (motive := Target.StandsAt n) id fun _ => ?_
  split
  case isTrue hslot =>
    obtain ⟨hle, haligned, -⟩ := hslot
    show n = 0x080 + 8 * ((n - 0x080) / 8)
    omega
  case isFalse =>
    refine iteInduction (motive := Target.StandsAt n) (fun hbuf => ?_) fun _ => trivial
    obtain ⟨hle, hlt⟩ := hbuf
    exact ⟨by omega, by omega⟩

/-- An offset that is neither a register's first byte nor in BUF is reserved (R78). -/
theorem portTarget_eq_reserved {n : Nat} (hreg : ¬(n % 8 = 0 ∧ (n ≤ 0x048 ∨ (0x080 ≤ n ∧ n < 0x100))))
    (hbuf : ¬(0x1000 ≤ n ∧ n < 0x1000 + Config.bufSize)) : portTarget n = .reserved := by
  have hat := portTarget_standsAt n
  generalize portTarget n = tg at hat ⊢
  cases tg with
  | reserved => rfl
  | buf a =>
    obtain ⟨hn, ha⟩ := hat
    omega
  | slotInfo k =>
    have hk : k.val < 16 := k.isLt
    have hn : n = 0x080 + 8 * k.val := hat
    omega
  | _ => simp only [Target.StandsAt] at hat; omega

/-- At an offset that is neither CMD, nor an ARG, nor in BUF, a write is ignored: the target is read-only or
reserved (R78). -/
theorem writeTarget_ignored {n : Nat} (hreg : ¬(n % 8 = 0 ∧ (n = 0x000 ∨ (0x020 ≤ n ∧ n ≤ 0x038))))
    (hbuf : ¬(0x1000 ≤ n ∧ n < 0x1000 + Config.bufSize)) (v : Word) (s : State) :
    writeTarget (portTarget n) v s = .next s := by
  have hat := portTarget_standsAt n
  generalize portTarget n = tg at hat ⊢
  cases tg with
  | cmd | arg | buf => simp only [Target.StandsAt] at hat; omega
  | _ => rfl

/-- Settles O9: a read there finds a reserved target, and a write finds one that ignores it. -/
theorem reservedAccessesDoNothing : Obligations.ReservedAccessesDoNothing := by
  intro s rest off v reg writable inBuf
  exact ⟨fun hreg hbuf h => step_read_of_target h (portTarget_eq_reserved hreg hbuf) rfl,
    fun hreg hbuf h => (step_write h).trans (writeTarget_ignored hreg hbuf v _)⟩

end Sys2Proof.Machine
end

section
/-! PROOFS. The command word taken apart and put together (spec/30_encoding.md R100, R104): a word is its five fields,
and the word of a command is the one with the command's fields and RSV = 0. -/

namespace Sys2Proof

/-! The fields of a word laid out as R100 says. -/

@[simp] theorem opField_commandWord (op : BitVec 8) (s : SlotNum) (e d : Bool) : opField (commandWord op s e d) = op :=
  BitVec.extractLsb'_append_eq_right

@[simp] theorem slotField_commandWord (op : BitVec 8) (s : SlotNum) (e d : Bool) :
    slotField (commandWord op s e d) = s :=
  (BitVec.extractLsb'_append_eq_of_le (by decide)).trans BitVec.extractLsb'_append_eq_right

@[simp] theorem eField_commandWord (op : BitVec 8) (s : SlotNum) (e d : Bool) : eField (commandWord op s e d) = e := by
  simp [eField, commandWord, BitVec.getElem_append (m := 8), BitVec.getElem_append (m := 4),
    BitVec.getElem_append (m := 1)]

@[simp] theorem dField_commandWord (op : BitVec 8) (s : SlotNum) (e d : Bool) : dField (commandWord op s e d) = d := by
  simp [dField, commandWord, BitVec.getElem_append (m := 8), BitVec.getElem_append (m := 4),
    BitVec.getElem_append (m := 1)]

@[simp] theorem rsvField_commandWord (op : BitVec 8) (s : SlotNum) (e d : Bool) :
    rsvField (commandWord op s e d) = 0 := by
  rw [rsvField, commandWord]
  iterate 4 rw [BitVec.extractLsb'_append_eq_of_le (by decide)]
  rfl

/-- A flag's field as one bit of the word. -/
theorem ofBool_getLsbD_eq_extractLsb' (w : Word32) (k : Nat) : BitVec.ofBool (w.getLsbD k) = w.extractLsb' k 1 := by
  ext i hi
  obtain rfl : i = 0 := by omega
  simp

/-- The five fields cover the word (R100). -/
theorem append_fields (w : Word32) :
    rsvField w ++ BitVec.ofBool (dField w) ++ BitVec.ofBool (eField w) ++ slotField w ++ opField w = w := by
  simp only [rsvField, dField, eField, slotField, opField, ofBool_getLsbD_eq_extractLsb']
  iterate 4 rw [BitVec.extractLsb'_append_extractLsb'_eq_extractLsb' (by decide)]
  exact BitVec.extractLsb'_eq_self

theorem eq_iff_fields {w w' : Word32} : w = w' ↔
    rsvField w = rsvField w' ∧ opField w = opField w' ∧ slotField w = slotField w' ∧ eField w = eField w' ∧
      dField w = dField w' := by
  refine ⟨fun h => h ▸ ⟨rfl, rfl, rfl, rfl, rfl⟩, fun ⟨hrsv, hop, hslot, he, hd⟩ => ?_⟩
  rw [← append_fields w, ← append_fields w', hrsv, hop, hslot, he, hd]

/-- The word of a command has RSV = 0 and the command's fields, and it is the only such word. -/
theorem encode_eq_iff {i : Instr} {w : Word32} : encode i = w ↔
    rsvField w = 0 ∧ FieldsAre i (opField w) (slotField w) (eField w) (dField w) := by
  simp [eq_iff_fields, encode, FieldsAre, eq_comm (a := rsvField w)]

end Sys2Proof
end

section
/-! PROOFS. The opcode map (spec/30_encoding.md R102, R103, R106, R108): it answers the commands of the defined OPs,
each with its own fields. -/

namespace Sys2Proof

theorem admitsE_iff {op : BitVec 8} : admitsE op = true ↔ op ∈ opsWithE := by
  revert op; decide

theorem admitsD_iff {op : BitVec 8} : admitsD op = true ↔ op ∈ opsWithD := by
  revert op; decide

@[simp] theorem op_mem_definedOps (i : Instr) : i.op ∈ definedOps := by
  cases i <;> simp [Instr.op, definedOps]

theorem opcodeMap_fields (i : Instr) : opcodeMap i.op i.slot i.flagE i.flagD = some i := by
  cases i <;> rfl

/-- The command has the fields given, but for a flag that it does not admit, which is 0 in it (R102, R103). -/
theorem fieldsAre_of_opcodeMap {op : BitVec 8} {s : SlotNum} {e d : Bool} {i : Instr}
    (h : opcodeMap op s e d = some i) :
    FieldsAre i op s (e && admitsE op) (d && admitsD op) := by
  unfold opcodeMap at h
  split at h <;> cases h
  all_goals simp [FieldsAre, BitVec.toNat_eq, Instr.op, Instr.slot, Instr.flagE, Instr.flagD, admitsE, admitsD, *]

/-- A command with given fields: the map answers it, and it admits the flags that are set. -/
theorem fieldsAre_iff {op : BitVec 8} {s : SlotNum} {e d : Bool} {i : Instr} : FieldsAre i op s e d ↔
    opcodeMap op s e d = some i ∧ (e = true → op ∈ opsWithE) ∧ (d = true → op ∈ opsWithD) := by
  constructor
  · rintro ⟨rfl, rfl, rfl, rfl⟩
    obtain ⟨-, -, he, hd⟩ := fieldsAre_of_opcodeMap (opcodeMap_fields i)
    exact ⟨opcodeMap_fields i, admitsE_iff.mp ∘ Bool.and_eq_left_iff_imp.mp he.symm,
      admitsD_iff.mp ∘ Bool.and_eq_left_iff_imp.mp hd.symm⟩
  · rintro ⟨hmap, he, hd⟩
    obtain ⟨hop, hslot, hflagE, hflagD⟩ := fieldsAre_of_opcodeMap hmap
    exact ⟨hop, hslot, hflagE.trans (Bool.and_eq_left_iff_imp.mpr (admitsE_iff.mpr ∘ he)),
      hflagD.trans (Bool.and_eq_left_iff_imp.mpr (admitsD_iff.mpr ∘ hd))⟩

/-- R108: the reserved OPs are the ones not in the map. -/
theorem isSome_opcodeMap_iff {op : BitVec 8} {s : SlotNum} {e d : Bool} :
    (opcodeMap op s e d).isSome = true ↔ op ∈ definedOps := by
  constructor
  · intro h
    obtain ⟨i, hi⟩ := Option.isSome_iff_exists.mp h
    obtain ⟨rfl, -⟩ := fieldsAre_of_opcodeMap hi
    exact op_mem_definedOps i
  · have hdefined : ∀ op ∈ definedOps, (opcodeMap op s e d).isSome = true := by simp [definedOps, opcodeMap]
    exact hdefined op

theorem opcodeMap_eq_none {op : BitVec 8} {s : SlotNum} {e d : Bool} (h : op ∉ definedOps) :
    opcodeMap op s e d = none :=
  Option.not_isSome_iff_eq_none.mp (mt isSome_opcodeMap_iff.mp h)

/-- Every defined OP has a command with given operands, as long as it admits the flags that are set. -/
theorem exists_fieldsAre {op : BitVec 8} {e d : Bool} (s : SlotNum) (hop : op ∈ definedOps)
    (he : e = true → op ∈ opsWithE) (hd : d = true → op ∈ opsWithD) : ∃ i, FieldsAre i op s e d := by
  obtain ⟨i, hi⟩ := Option.isSome_iff_exists.mp (isSome_opcodeMap_iff.mpr hop)
  exact ⟨i, fieldsAre_iff.mpr ⟨hi, he, hd⟩⟩

end Sys2Proof
end

section
/-! PROOFS. The decoder (spec/30_encoding.md R104, R110): a word is the command i exactly when RSV is 0 and its fields
are those of i; the other words are refused by the first check that fails. -/

namespace Sys2Proof

theorem slot_lt_nslots (s : SlotNum) : s.toNat < Config.nslots := s.isLt

/-- R101: with NSLOTS = 16, every slot that the field can hold is there. -/
theorem Instr.wellFormed (i : Instr) : i.WellFormed := if_pos (slot_lt_nslots i.slot)

theorem decode_of_reservedBits {w : Word32} (h : rsvField w ≠ 0) : decode w = .error .reservedBits := if_pos h

theorem decode_of_reservedOp {w : Word32} (hrsv : rsvField w = 0) (h : opField w ∉ definedOps) :
    decode w = .error .reservedOp := by
  simp [decode, hrsv, opcodeMap_eq_none h]

/-- The checks that are left for a word with RSV = 0 and a defined OP are those of the flags. -/
theorem decode_of_definedOp {w : Word32} (hrsv : rsvField w = 0) (hop : opField w ∈ definedOps) :
    ∃ i, opcodeMap (opField w) (slotField w) (eField w) (dField w) = some i ∧
      decode w = if eField w = true ∧ opField w ∉ opsWithE then .error .flagENotAdmitted
        else if dField w = true ∧ opField w ∉ opsWithD then .error .flagDNotAdmitted else .ok i := by
  obtain ⟨i, h⟩ := Option.isSome_iff_exists.mp (isSome_opcodeMap_iff.mpr hop)
  refine ⟨i, h, ?_⟩
  simp [decode, hrsv, h, ← admitsE_iff, ← admitsD_iff, Nat.not_le.mpr (slot_lt_nslots _)]

theorem decode_of_flagENotAdmitted {w : Word32} (hrsv : rsvField w = 0) (hop : opField w ∈ definedOps)
    (he : eField w = true ∧ opField w ∉ opsWithE) : decode w = .error .flagENotAdmitted := by
  obtain ⟨i, -, hdecode⟩ := decode_of_definedOp hrsv hop
  rw [hdecode, if_pos he]

theorem decode_of_flagDNotAdmitted {w : Word32} (hrsv : rsvField w = 0) (hop : opField w ∈ definedOps)
    (he : ¬(eField w = true ∧ opField w ∉ opsWithE)) (hd : dField w = true ∧ opField w ∉ opsWithD) :
    decode w = .error .flagDNotAdmitted := by
  obtain ⟨i, -, hdecode⟩ := decode_of_definedOp hrsv hop
  rw [hdecode, if_neg he, if_pos hd]

/-- A word decodes to the command i exactly when its RSV is 0 and its other fields are those of i. -/
theorem decode_eq_ok_iff {w : Word32} {i : Instr} : decode w = .ok i ↔
    rsvField w = 0 ∧ FieldsAre i (opField w) (slotField w) (eField w) (dField w) := by
  rw [fieldsAre_iff]
  by_cases hrsv : rsvField w = 0
  case neg => exact iff_of_false (by simp [decode_of_reservedBits hrsv]) (mt And.left hrsv)
  by_cases hop : opField w ∈ definedOps
  case neg => simp [decode_of_reservedOp hrsv hop, opcodeMap_eq_none hop]
  obtain ⟨j, hj, hdecode⟩ := decode_of_definedOp hrsv hop
  rw [hdecode, hj]
  split_ifs with he hd
  · simp [he]
  · simp [hd]
  · simpa [hrsv] using fun _ => ⟨not_and_not_right.mp he, not_and_not_right.mp hd⟩

/-- Settles O1: a command's word has RSV = 0 and the command's fields, which the decoder reads back. -/
theorem decodeOfEncodeIsTheCommand : Obligations.DecodeOfEncodeIsTheCommand :=
  fun _ _ => decode_eq_ok_iff.mpr (encode_eq_iff.mp rfl)

/-- Settles O2: the fields of a word with RSV = 0 are the whole word. -/
theorem encodeOfDecodeIsTheWord : Obligations.EncodeOfDecodeIsTheWord :=
  fun _ i h => ⟨encode_eq_iff.mpr (decode_eq_ok_iff.mp h), i.wellFormed⟩

/-- Settles O4: each check that fails is one case of the decoder; with all passed, the OP has a command of these
fields. -/
theorem decodeChecksInOrder : Obligations.DecodeChecksInOrder := by
  intro w
  split_ifs with hrsv hop he hd hslot
  · exact decode_of_reservedBits hrsv
  · exact decode_of_flagENotAdmitted (not_not.mp hrsv) hop he
  · exact decode_of_flagDNotAdmitted (not_not.mp hrsv) hop he hd
  · exact absurd (slot_lt_nslots _) (Nat.not_lt.mpr hslot)
  · obtain ⟨i, hfields⟩ := exists_fieldsAre (slotField w) hop (not_and_not_right.mp he) (not_and_not_right.mp hd)
    exact ⟨i, decode_eq_ok_iff.mpr ⟨not_not.mp hrsv, hfields⟩, hfields⟩
  · exact decode_of_reservedOp (not_not.mp hrsv) hop

/-- Settles O5: each word is evaluated. -/
theorem specWordsDecode : Obligations.SpecWordsDecode := by
  unfold Obligations.SpecWordsDecode
  decide

end Sys2Proof
end

section
/-! PROOFS. The opcode table (spec/30_encoding.md R107): its rows are the rows of the commands, and a row selects the
words that decode to a command of its OP. -/

namespace Sys2Proof

/-- The bits of a command's word that its operands fill: SLOT and the flags it admits (R101 to R103). -/
def Instr.operandBits (i : Instr) : Word32 := commandWord 0 (BitVec.allOnes 4) (admitsE i.op) (admitsD i.op)

/-- The row of a command in the opcode table: every bit that is no operand's is fixed (R107). -/
def Instr.row (i : Instr) : OpcodeRow := ⟨i.mnemonic, commandWord i.op 0 false false, ~~~i.operandBits⟩

/-- The row of an OP, which is the row of every command of that OP. -/
def rowOf (op : BitVec 8) : Option OpcodeRow := (opcodeMap op 0 false false).map Instr.row

@[simp] theorem rowOf_op (i : Instr) : rowOf i.op = some i.row := by
  cases i <;> rfl

theorem row_eq_of_op_eq {i j : Instr} (h : i.op = j.op) : i.row = j.row :=
  Option.some.inj (by rw [← rowOf_op, h, rowOf_op])

theorem opcodeRows_eq : opcodeRows = definedOps.filterMap rowOf := by
  decide

/-- The opcode table holds the rows of the commands. -/
theorem mem_opcodeRows_iff {r : OpcodeRow} : r ∈ opcodeRows ↔ ∃ i : Instr, i.row = r := by
  rw [opcodeRows_eq, List.mem_filterMap]
  constructor
  · rintro ⟨op, -, hrow⟩
    obtain ⟨i, -, hi⟩ := Option.map_eq_some_iff.mp hrow
    exact ⟨i, hi⟩
  · rintro ⟨i, rfl⟩
    exact ⟨i.op, op_mem_definedOps i, rowOf_op i⟩

/-- A comparison under a mask, field by field. -/
theorem and_not_eq_iff {w m p : Word32} : w &&& ~~~m = p ↔
    rsvField w &&& ~~~rsvField m = rsvField p ∧ opField w &&& ~~~opField m = opField p ∧
      slotField w &&& ~~~slotField m = slotField p ∧ (eField w && !eField m) = eField p ∧
      (dField w && !dField m) = dField p := by
  have hrsv : rsvField (~~~m) = ~~~rsvField m := by
    ext i hi
    have hbit : 14 + i < 32 := by omega
    simp [rsvField, hbit]
  rw [eq_iff_fields, ← hrsv]
  simp [rsvField, opField, slotField, eField, dField, BitVec.extractLsb'_and, BitVec.extractLsb'_not_of_lt]

/-- R107: a row selects the words with RSV = 0 and its OP that set no flag but the ones the OP admits. -/
theorem selects_row_iff_fields {w : Word32} {j : Instr} : w &&& j.row.mask = j.row.pattern ↔
    rsvField w = 0 ∧ opField w = j.op ∧ (eField w = true → j.op ∈ opsWithE) ∧ (dField w = true → j.op ∈ opsWithD) := by
  rw [Instr.row, and_not_eq_iff]
  simp [Instr.operandBits, ← admitsE_iff, ← admitsD_iff, -BitVec.reduceNot, -BitVec.reduceAllOnes]

/-- The words that a command's row selects are the words that decode to a command of this row. -/
theorem selects_row_iff {w : Word32} {j : Instr} : w &&& j.row.mask = j.row.pattern ↔
    ∃ i, decode w = .ok i ∧ i.row = j.row := by
  constructor
  · intro h
    obtain ⟨hrsv, hop, he, hd⟩ := selects_row_iff_fields.mp h
    obtain ⟨i, hfields⟩ := exists_fieldsAre (slotField w) (op_mem_definedOps j) he hd
    rw [← hop] at hfields
    have hij : i.op = j.op := hfields.1.trans hop
    exact ⟨i, decode_eq_ok_iff.mpr ⟨hrsv, hfields⟩, row_eq_of_op_eq hij⟩
  · rintro ⟨i, hi, hrow⟩
    obtain ⟨hrsv, hfields⟩ := decode_eq_ok_iff.mp hi
    obtain ⟨-, he, hd⟩ := fieldsAre_iff.mp hfields
    obtain ⟨hop, -⟩ := hfields
    rw [← hrow, selects_row_iff_fields, hop]
    exact ⟨hrsv, rfl, he, hd⟩

theorem commandWord_op (op : BitVec 8) : commandWord op 0 false false = op.setWidth 32 := by
  revert op; decide

/-- Settles O3: a row selects the words that decode to a command of the row, and a word decodes to one command. -/
theorem decodeAcceptsTheTableRows : Obligations.DecodeAcceptsTheTableRows := by
  refine ⟨fun w i h => ?_, fun w r hr h => ?_, fun w r r' hr hr' h h' => ?_, by decide⟩
  · exact ⟨i.row, mem_opcodeRows_iff.mpr ⟨i, rfl⟩, selects_row_iff.mpr ⟨i, h, rfl⟩, rfl, commandWord_op i.op⟩
  · obtain ⟨j, rfl⟩ := mem_opcodeRows_iff.mp hr
    obtain ⟨i, hi, hrow⟩ := selects_row_iff.mp h
    exact ⟨i, hi, congrArg OpcodeRow.mnemonic hrow⟩
  · obtain ⟨j, rfl⟩ := mem_opcodeRows_iff.mp hr
    obtain ⟨j', rfl⟩ := mem_opcodeRows_iff.mp hr'
    obtain ⟨i, hi, hrow⟩ := selects_row_iff.mp h
    obtain ⟨i', hi', hrow'⟩ := selects_row_iff.mp h'
    obtain rfl : i = i' := Except.ok.inj (hi.symm.trans hi')
    exact hrow.symm.trans hrow'

end Sys2Proof
end

section
/-! PROOFS. The native draws of SplitMix64, Xoshiro256** and PCG32 (spec/40_engine_cores.md R131 to R133, R140, R161
to R163). -/

namespace Sys2Proof.Machine

theorem lo32_eq_setWidth (x : Word) : lo32 x = x.setWidth 32 :=
  (BitVec.setWidth_eq_extractLsb' (by decide)).symm

/-- The update of R140 with every intermediate word written out. -/
theorem xsNext64_eq (s0 s1 s2 s3 : Word) : xsNext64 ⟨s0, s1, s2, s3⟩ = ((s1 * 5).rotateLeft 7 * 9,
    ⟨s0 ^^^ s1 ^^^ s3, s0 ^^^ s1 ^^^ s2, s0 ^^^ s2 ^^^ (s1 <<< 17), (s1 ^^^ s3).rotateLeft 45⟩) := by
  have h0 : s0 ^^^ (s3 ^^^ s1) = s0 ^^^ s1 ^^^ s3 := by ac_rfl
  have h1 : s1 ^^^ (s2 ^^^ s0) = s0 ^^^ s1 ^^^ s2 := by ac_rfl
  rw [xsNext64, rotl64_eq_rotateLeft _ (by decide), rotl64_eq_rotateLeft _ (by decide), h0, h1, BitVec.xor_comm s2,
    BitVec.xor_comm s3]

/-- The rotation amount of R162 is the top five bits. -/
theorem pcgOut_eq (old : Word) :
    pcgOut old = (((old ^^^ (old >>> 18)) >>> 27).setWidth 32).rotateRight (old >>> 59).toNat := by
  have hamount : (old >>> 59).toNat < 32 := by bv_omega
  rw [pcgOut, rotr32_eq_rotateRight _ hamount, lo32_eq_setWidth, xsr64]

/-- Settles O60: the constants are those of the rules, and the two rotations and the xors are brought to the rules'
form. -/
theorem nativeDrawRecurrences : Obligations.NativeDrawRecurrences :=
  ⟨fun _ => rfl, xsNext64_eq, fun pst pinc => congrArg (·, Pcg.mk (pcgStep pst pinc) pinc) (pcgOut_eq pst)⟩

end Sys2Proof.Machine
end

section
/-! PROOFS. The outputs of SplitMix64 by their number (spec/40_engine_cores.md R133 to R135). -/

namespace Sys2Proof.Machine

/-- Step number k + 1 from t. -/
theorem smNext64_smAfter (k : Nat) (t : Word) :
    smNext64 (smAfter k t) = (splitMixOutput t (k + 1), smAfter (k + 1) t) := by
  have hstate : smAfter k t + gamma = smAfter (k + 1) t := by
    rw [smAfter, smAfter, BitVec.ofNat_add, BitVec.add_mul, BitVec.add_assoc, BitVec.one_mul]
  rw [smNext64, hstate]
  rfl

theorem smAfter_smAfter (j k : Nat) (t : Word) : smAfter j (smAfter k t) = smAfter (k + j) t := by
  rw [smAfter, smAfter, smAfter, BitVec.ofNat_add, BitVec.add_mul, BitVec.add_assoc]

/-- GAMMA is odd, so fewer than 2^64 steps never return to a state. -/
theorem eq_of_smAfter_eq {i j : Nat} (hi : i < 2 ^ 64) (hj : j < 2 ^ 64) {t : Word} (h : smAfter i t = smAfter j t) :
    i = j := by
  have hmul : BitVec.ofNat 64 i * gamma = BitVec.ofNat 64 j * gamma := (BitVec.add_right_inj t).mp h
  have hodd := mul_injective_of_inverse (c := gamma) (c' := 0xF1DE83E19937733D#64) (by decide)
  have hnum := congrArg BitVec.toNat (hodd hmul)
  rwa [BitVec.toNat_ofNat, BitVec.toNat_ofNat, Nat.mod_eq_of_lt hi, Nat.mod_eq_of_lt hj] at hnum

/-- Settles O46: the mix is injective, and so is the counter for 2^64 steps. -/
theorem splitMixOutputsAreDistinct : Obligations.SplitMixOutputsAreDistinct := by
  intro t i j hi hj h
  have hmix : smMix (smAfter i t + gamma) = smMix (smAfter j t + gamma) := h
  exact eq_of_smAfter_eq hi hj ((BitVec.add_left_inj gamma).mp (smMix_injective hmix))

/-- R134: word j of an expansion is the high half of the draw after j steps. -/
theorem getD_smExpand32 {n j : Nat} (t : Word) (h : j < n) :
    (smExpand32 t n).getD j 0 = hi32 (smNext64 (smAfter j t)).1 := by
  induction n generalizing j t with
  | zero => omega
  | succ n ih =>
    cases j with
    | zero => rw [smAfter_zero, smExpand32, List.getD_cons_zero]
    | succ j => rw [smAfter_succ, smExpand32, List.getD_cons_succ, ih _ (by omega)]

/-- R141: the state words are the first four outputs. -/
theorem xsSeed_eq (seed : Word) : xsSeed seed =
    ⟨splitMixOutput seed 1, splitMixOutput seed 2, splitMixOutput seed 3, splitMixOutput seed 4⟩ := by
  have h0 := smNext64_smAfter 0 seed
  rw [smAfter_zero] at h0
  simp only [xsSeed, h0, smNext64_smAfter]

end Sys2Proof.Machine
end

section
/-! PROOFS. MT19937 (spec/40_engine_cores.md R151 to R154): the initial words, the twist and the draw. -/

namespace Sys2Proof.Machine

/-- R151: the word after word j of an initialisation that begins at index i. -/
theorem getElem_mtWords_succ {n i j : Nat} {x : Word32} (h : j + 1 < (mtWords n i x).length) :
    (mtWords n i x)[j + 1] =
      1812433253#32 * xsr32 (mtWords n i x)[j] 30 + BitVec.ofNat 32 (i + j + 1) := by
  induction n generalizing i j x with
  | zero => simp [mtWords] at h
  | succ n ih =>
    cases j with
    | zero =>
      cases n with
      | zero => simp [mtWords] at h
      | succ n => rfl
    | succ j =>
      have hlt : j + 1 < (mtWords n (i + 1) (1812433253#32 * xsr32 x 30 + BitVec.ofNat 32 (i + 1))).length :=
        Nat.lt_of_succ_lt_succ h
      rw [show i + (j + 1) + 1 = i + 1 + j + 1 by omega]
      exact ih hlt

/-- R151: MT_INIT entry by entry. -/
theorem getElem_mtInit_succ (seed : Word32) {i : Nat} (h : i + 1 < 624) : (mtInit seed).mt[i + 1] =
    1812433253#32 * ((mtInit seed).mt[i] ^^^ ((mtInit seed).mt[i] >>> 30)) + BitVec.ofNat 32 (i + 1) := by
  have hword := getElem_mtWords_succ (n := 624) (i := 0) (j := i) (x := seed) (by rwa [mtWords_length])
  rw [Nat.zero_add] at hword
  exact hword

/-! The twist (R152), step by step. -/

/-- The block after the first n steps of MT_TWIST. -/
def mtTwistFirst (mt : Vector Word32 624) (n : Nat) (hn : n ≤ 624) : Vector Word32 624 :=
  Nat.fold n (fun k hk m => m.set k (mtTwistWord m k (hk.trans_le hn)) (hk.trans_le hn)) mt

theorem mtTwist_eq (mt : Vector Word32 624) : mtTwist mt = mtTwistFirst mt 624 le_rfl := rfl

theorem mtTwistFirst_succ (mt : Vector Word32 624) {n : Nat} (hn : n < 624) :
    mtTwistFirst mt (n + 1) hn =
      (mtTwistFirst mt n hn.le).set n (mtTwistWord (mtTwistFirst mt n hn.le) n hn) hn :=
  Nat.fold_succ ..

/-- The entries that the twist has not reached. -/
theorem getElem_mtTwistFirst_of_le (mt : Vector Word32 624) {n j : Nat} (hn : n ≤ 624) (hj : j < 624) (h : n ≤ j) :
    (mtTwistFirst mt n hn)[j] = mt[j] := by
  induction n with
  | zero => rfl
  | succ n ih => rw [mtTwistFirst_succ, Vector.getElem_set_ne _ _ (by omega), ih (by omega) (by omega)]

/-- An entry that the twist has passed holds what its own step gave it. -/
theorem getElem_mtTwistFirst_of_lt (mt : Vector Word32 624) {n j : Nat} (hn : n ≤ 624) (h : j < n) :
    (mtTwistFirst mt n hn)[j] = mtTwistWord (mtTwistFirst mt j (by omega)) j (by omega) := by
  induction n with
  | zero => omega
  | succ n ih =>
    rw [mtTwistFirst_succ]
    rcases Nat.lt_succ_iff_lt_or_eq.mp h with hlt | rfl
    · rw [Vector.getElem_set_ne _ _ (by omega), ih (by omega) hlt]
    · rw [Vector.getElem_set_self]

/-- The entries as step n finds them: the new ones below n, and the old ones from n on. -/
theorem getElem_mtTwistFirst (mt : Vector Word32 624) {n j : Nat} (hn : n ≤ 624) (hj : j < 624) :
    (mtTwistFirst mt n hn)[j] = if j < n then (mtTwist mt)[j] else mt[j] := by
  split_ifs with h
  · rw [mtTwist_eq, getElem_mtTwistFirst_of_lt mt hn h, getElem_mtTwistFirst_of_lt mt le_rfl hj]
  · exact getElem_mtTwistFirst_of_le mt hn hj (by omega)

/-- The combination of R152 of an entry u, the next one l and the one m that stands 397 further on. -/
def mtMix (u l m : Word32) : Word32 :=
  let y := (u &&& 0x80000000#32) ||| (l &&& 0x7FFFFFFF#32)
  m ^^^ (y >>> 1) ^^^ (if y.getLsbD 0 then 0x9908B0DF#32 else 0#32)

theorem mtTwistWord_eq (mt : Vector Word32 624) {k : Nat} (hk : k < 624) :
    mtTwistWord mt k hk = mtMix mt[k] (mt[(k + 1) % 624]'(Nat.mod_lt _ (by decide)))
      (mt[(k + 397) % 624]'(Nat.mod_lt _ (by decide))) := rfl

/-- Entry k of the regenerated block, from the entries as step k finds them. -/
theorem getElem_mtTwist (mt : Vector Word32 624) {k i j : Nat} (hk : k < 624) (hi : i < 624) (hj : j < 624)
    (hik : (k + 1) % 624 = i) (hjk : (k + 397) % 624 = j) :
    (mtTwist mt)[k] = mtMix mt[k] (if i < k then (mtTwist mt)[i] else mt[i])
      (if j < k then (mtTwist mt)[j] else mt[j]) := by
  subst hik hjk
  conv_lhs =>
    rw [mtTwist_eq, getElem_mtTwistFirst_of_lt mt le_rfl hk, mtTwistWord_eq, getElem_mtTwistFirst,
      getElem_mtTwistFirst, getElem_mtTwistFirst, if_neg (Nat.lt_irrefl k)]

/-- Settles O48: the next entry is an old one but for the last step, and the one 397 further on is a new one once its
index has wrapped. -/
theorem mtTwistRecurrence : Obligations.MtTwistRecurrence := by
  rintro mt _ rfl mix
  refine ⟨fun k h => ?_, fun k h h' => ?_, ?_⟩
  · rw [getElem_mtTwist mt (i := k + 1) (j := k + 397) (by omega) (by omega) (by omega) (by omega) (by omega),
      if_neg (by omega), if_neg (by omega)]
    rfl
  · rw [getElem_mtTwist mt (i := k + 1) (j := k - 227) (by omega) (by omega) (by omega) (by omega) (by omega),
      if_neg (by omega), if_pos (by omega)]
    rfl
  · rw [getElem_mtTwist mt (i := 0) (j := 396) (by decide) (by decide) (by decide) (by decide) (by decide),
      if_pos (by decide), if_pos (by decide)]
    rfl

/-! The draw (R154). -/

theorem mtNext32_of_lt {m : Mersenne} (h : m.mti.val < 624) :
    mtNext32 m = (mtTemper m.mt[m.mti.val], ⟨m.mt, ⟨m.mti.val + 1, by omega⟩⟩) := dif_pos h

theorem mtNext32_of_exhausted {m : Mersenne} (h : m.mti.val = 624) :
    mtNext32 m = (mtTemper (mtTwist m.mt)[0], ⟨mtTwist m.mt, 1⟩) := dif_neg (by omega)

/-- Settles O49: the two branches of the draw. -/
theorem mtDrawTempersTheNextWord : Obligations.MtDrawTempersTheNextWord := by
  intro m temper
  refine ⟨fun h => ?_, fun h => ?_⟩
  · rw [mtNext32_of_lt h]
    exact ⟨rfl, rfl, rfl⟩
  · rw [mtNext32_of_exhausted h]
    exact ⟨rfl, rfl, rfl⟩

end Sys2Proof.Machine
end

section
/-! PROOFS. The CMWC draw in exact integers, and the carry that seeding draws
(spec/40_engine_cores.md R166 to R168). -/

namespace Sys2Proof.Machine

/-- The index advance of R166 wraps at the table's size, a power of two. -/
theorem cmwcIndex_eq {n : Nat} (h : CmwcSize n) (i : Nat) : i &&& (n - 1) = i % n := by
  obtain ⟨e, -, -, rfl⟩ := h
  exact Nat.and_two_pow_sub_one_eq_mod i e

/-- The fields of the next state, with the index advance written as a remainder. -/
theorem cmwcNext32_state {k : Cmwc} (h : CmwcSize k.n) :
    (cmwcNext32 k).2.n = k.n ∧ (cmwcNext32 k).2.ci = (k.ci + 1) % k.n ∧
      (cmwcNext32 k).2.q = k.q.set ((k.ci + 1) % k.n) (cmwcNext32 k).1 := by
  rw [← cmwcIndex_eq h]
  exact ⟨rfl, rfl, rfl⟩

/-- A sum of two u32 words is below one of them exactly when it has wrapped. -/
theorem add_lt_right_iff (l h : Word32) : l + h < h ↔ 2 ^ 32 ≤ l.toNat + h.toNat := by
  bv_omega

/-- The product of R166, T, as the draw computes it. -/
def cmwcProduct (k : Cmwc) : Word := 18782#64 * zext64 (k.q.getD ((k.ci + 1) &&& (k.n - 1)) 0) + zext64 k.c

theorem cmwcNext32_of_product (k : Cmwc) :
    let h := hi32 (cmwcProduct k)
    let x := lo32 (cmwcProduct k) + h
    (cmwcNext32 k).2.c = (if x < h then h + 1 else h) ∧
      (cmwcNext32 k).1 = 0xFFFFFFFE#32 - if x < h then x + 1 else x :=
  ⟨rfl, rfl⟩

/-- The carry and the answer of a draw, from the high word and the low word of its product in exact integers. -/
theorem cmwcNext32_exact (k : Cmwc) {h l : Nat} (hhigh : (hi32 (cmwcProduct k)).toNat = h)
    (hlow : (lo32 (cmwcProduct k)).toNat = l) (hbound : h ≤ 18782) :
    (cmwcNext32 k).2.c.toNat = (if 2 ^ 32 ≤ l + h then h + 1 else h) ∧
      (cmwcNext32 k).1.toNat =
        (0xFFFFFFFE + 2 ^ 32 - if 2 ^ 32 ≤ l + h then l + h - 2 ^ 32 + 1 else l + h) % 2 ^ 32 := by
  obtain ⟨hcarry, hanswer⟩ := cmwcNext32_of_product k
  rw [hcarry, hanswer]
  generalize lo32 (cmwcProduct k) = lw at *
  generalize hi32 (cmwcProduct k) = hw at *
  subst hhigh hlow
  simp only [add_lt_right_iff]
  split_ifs with hwrap
  · constructor <;> bv_omega
  · exact ⟨rfl, by bv_omega⟩

/-- Settles O50: the 64-bit product does not overflow, and its words are T / 2^32 and T mod 2^32. -/
theorem cmwcDrawExact : Obligations.CmwcDrawExact := by
  intro k hsize hlen hci ci T h l x r
  obtain ⟨hn, hindex, htable⟩ := cmwcNext32_state hsize
  have hT : (cmwcProduct k).toNat = T := by
    rw [cmwcProduct, toNat_cmwcProduct, cmwcIndex_eq hsize]
  have hhigh : (hi32 (cmwcProduct k)).toNat = h := by rw [toNat_hi32, hT]
  have hlow : (lo32 (cmwcProduct k)).toNat = l := by rw [toNat_lo32, hT]
  obtain ⟨hcarry, hanswer⟩ := cmwcNext32_exact k hhigh hlow (cmwcProduct_bounds (BitVec.isLt _) k.c.isLt).1
  refine ⟨hn, hindex, hcarry, hanswer, List.length_set, fun j hj => ?_⟩
  have hlt : ci < k.q.length := by
    rw [hlen]
    exact Nat.mod_lt _ (Nat.zero_lt_of_lt hci)
  rw [htable]
  split_ifs with hjci
  · rw [hjci, List.getD_eq_getElem?_getD, List.getElem?_set_self hlt, Option.getD_some]
  · rw [List.getD_eq_getElem?_getD, List.getElem?_set_ne (Ne.symm hjci), ← List.getD_eq_getElem?_getD]

/-- Settles O51: the bound of the draw, and the reason R167 gives for it. -/
theorem cmwcCarryBound : Obligations.CmwcCarryBound :=
  ⟨cmwcNext32_carry_le, fun q c => cmwcProduct_bounds q.isLt c.isLt⟩

/-! The carry of CMWC_INIT (R168). -/

/-- The carry draws end at the first word below the bound, if it comes soon enough (R168). -/
theorem cmwcCarry_eq_of_first {k r : Nat} {t : Word} (hrk : r ≤ k)
    (hr : hi32 (smNext64 (smAfter r t)).1 < Config.cmwcCarryBound)
    (hfirst : ∀ r' < r, ¬hi32 (smNext64 (smAfter r' t)).1 < Config.cmwcCarryBound) :
    cmwcCarry k t = hi32 (smNext64 (smAfter r t)).1 := by
  induction k generalizing r t with
  | zero =>
    obtain rfl : r = 0 := by omega
    rw [smAfter_zero, cmwcCarry]
  | succ k ih =>
    rw [cmwcCarry]
    cases r with
    | zero =>
      rw [smAfter_zero] at hr ⊢
      rw [if_pos hr]
    | succ r =>
      have hskip := hfirst 0 (by omega)
      rw [smAfter_zero] at hskip
      rw [smAfter_succ] at hr ⊢
      rw [if_neg hskip]
      refine ih (by omega) hr fun r' hr' => ?_
      rw [← smAfter_succ]
      exact hfirst (r' + 1) (by omega)

/-- The carry of CMWC_INIT is the first word after the table that lies below the bound (R168). -/
theorem exists_carry_cmwcInit (seed : Word) (n : Nat) : ∃ r,
    (cmwcInit seed n).c = hi32 (splitMixOutput seed (n + r + 1)) ∧ (cmwcInit seed n).c < Config.cmwcCarryBound ∧
      ∀ r' < r, ¬hi32 (splitMixOutput seed (n + r' + 1)) < Config.cmwcCarryBound := by
  have hword (r : Nat) : hi32 (smNext64 (smAfter r (smAfter n seed))).1 = hi32 (splitMixOutput seed (n + r + 1)) := by
    rw [smAfter_smAfter, smNext64_smAfter]
  obtain ⟨j, hj⟩ := exists_smNext64_eq_zero (smAfter n seed)
  have hexists : ∃ r, hi32 (splitMixOutput seed (n + r + 1)) < Config.cmwcCarryBound :=
    ⟨j.toNat, by rw [← hword, hj]; decide⟩
  have hle : Nat.find hexists ≤ 2 ^ 64 :=
    (Nat.find_min' hexists (by rw [← hword, hj]; decide)).trans j.isLt.le
  have hfirst : cmwcCarry (2 ^ 64) (smAfter n seed) = _ := cmwcCarry_eq_of_first hle
    (by rw [hword]; exact Nat.find_spec hexists) fun r' hr' => by rw [hword]; exact Nat.find_min hexists hr'
  exact ⟨Nat.find hexists, hfirst.trans (hword _), carry_cmwcInit_lt seed n, fun r' hr' => Nat.find_min hexists hr'⟩

end Sys2Proof.Machine
end

section
/-! PROOFS. ChaCha-stream (spec/40_engine_cores.md R181 to R185): the quarter-round, the block and the draw. -/

namespace Sys2Proof.Machine

theorem getElem_set_fin (x : Vector Word32 16) (i j : Fin 16) (v : Word32) :
    (x.set i v)[j] = if j = i then v else x[j] := by
  rw [Fin.getElem_fin, Vector.getElem_set]
  exact if_congr (by rw [Fin.ext_iff, eq_comm]) rfl rfl

/-- A quarter of R181: word b is added to word a, which is mixed into word d. -/
def addMix (x : Vector Word32 16) (a b d : Fin 16) (r : Nat) : Vector Word32 16 :=
  (x.set a (x[a] + x[b])).set d (rotl32 ((x.set a (x[a] + x[b]))[d] ^^^ (x.set a (x[a] + x[b]))[a]) r)

theorem quarterRound_eq (x : Vector Word32 16) (a b c d : Fin 16) :
    quarterRound x a b c d = addMix (addMix (addMix (addMix x a b d 16) c d b 12) a b d 8) c d b 7 := rfl

section
variable (x : Vector Word32 16) {a b d j : Fin 16} {r : Nat}

theorem getElem_addMix_sum (had : a ≠ d) : (addMix x a b d r)[a] = x[a] + x[b] := by
  rw [addMix, getElem_set_fin, if_neg had, getElem_set_fin, if_pos rfl]

theorem getElem_addMix_mixed (had : a ≠ d) (hr : r < 32) :
    (addMix x a b d r)[d] = (x[d] ^^^ (x[a] + x[b])).rotateLeft r := by
  rw [addMix, getElem_set_fin, if_pos rfl, getElem_set_fin, if_neg had.symm, getElem_set_fin, if_pos rfl,
    rotl32_eq_rotateLeft _ hr]

theorem getElem_addMix_other (hja : j ≠ a) (hjd : j ≠ d) : (addMix x a b d r)[j] = x[j] := by
  rw [addMix, getElem_set_fin, if_neg hjd, getElem_set_fin, if_neg hja]

end

/-- Half a quarter-round of R181, on four distinct words: words a and d, then words c and b. -/
theorem getElem_addMix_addMix (x : Vector Word32 16) {a b c d : Fin 16} {r r' : Nat} (hr : r < 32) (hr' : r' < 32)
    (hab : a ≠ b) (hac : a ≠ c) (had : a ≠ d) (hbc : b ≠ c) (hbd : b ≠ d) (hcd : c ≠ d) :
    let a1 := x[a] + x[b]
    let d1 := (x[d] ^^^ a1).rotateLeft r
    let c1 := x[c] + d1
    let y := addMix (addMix x a b d r) c d b r'
    y[a] = a1 ∧ y[b] = (x[b] ^^^ c1).rotateLeft r' ∧ y[c] = c1 ∧ y[d] = d1 ∧
      ∀ j : Fin 16, j ≠ a → j ≠ b → j ≠ c → j ≠ d → y[j] = x[j] := by
  intro a1 d1 c1 y
  have hb : (addMix x a b d r)[b] = x[b] := getElem_addMix_other x hab.symm hbd
  have hc : (addMix x a b d r)[c] = x[c] := getElem_addMix_other x hac.symm hcd
  have hd : (addMix x a b d r)[d] = d1 := getElem_addMix_mixed x had hr
  refine ⟨?_, ?_, ?_, ?_, fun j hja hjb hjc hjd => ?_⟩
  · rw [getElem_addMix_other _ hac hab, getElem_addMix_sum x had]
  · rw [getElem_addMix_mixed _ hbc.symm hr', hb, hc, hd]
  · rw [getElem_addMix_sum _ hbc.symm, hc, hd]
  · rw [getElem_addMix_other _ hcd.symm hbd.symm, hd]
  · rw [getElem_addMix_other _ hjc hjb, getElem_addMix_other _ hja hjd]

/-- Settles O52: the two halves of the round, which differ in their rotation amounts. -/
theorem quarterRoundWords : Obligations.QuarterRoundWords := by
  intro x a b c d hab hac had hbc hbd hcd a1 d1 c1 b1 a2 d2 c2 b2 y
  have hhalf (z : Vector Word32 16) {r r' : Nat} (hr : r < 32) (hr' : r' < 32) :=
    getElem_addMix_addMix z hr hr' hab hac had hbc hbd hcd
  obtain ⟨ha, hb, hc, hd, hother⟩ := hhalf x (r := 16) (r' := 12) (by decide) (by decide)
  have hy := hhalf (addMix (addMix x a b d 16) c d b 12) (r := 8) (r' := 7) (by decide) (by decide)
  rw [ha, hb, hc, hd, ← quarterRound_eq] at hy
  obtain ⟨hya, hyb, hyc, hyd, hyother⟩ := hy
  exact ⟨hya, hyb, hyc, hyd, fun j hja hjb hjc hjd =>
    (hyother j hja hjb hjc hjd).trans (hother j hja hjb hjc hjd)⟩

/-- The counter words hold a u64 counter as its halves (R45). -/
theorem concat64_hi32_lo32 (x : Word) : concat64 (hi32 x) (lo32 x) = x := by
  rw [concat64, hi32, lo32, BitVec.extractLsb'_append_extractLsb'_eq_extractLsb' (by decide)]
  exact BitVec.extractLsb'_eq_self

/-- R184: the counter advances, and wraps. -/
theorem ccCounter_ccBlock (k : ChaCha) : ccCounter (ccBlock k) = ccCounter k + 1 := by
  have hlow : (ccBlock k).inp[12] = lo32 (ccCounter k + 1) := by
    rw [ccBlock, Vector.getElem_set_ne _ _ (by decide), Vector.getElem_set_self]
  have hhigh : (ccBlock k).inp[13] = hi32 (ccCounter k + 1) := by
    rw [ccBlock, Vector.getElem_set_self]
  rw [ccCounter, hlow, hhigh, concat64_hi32_lo32]

/-- R184: a new block leaves every input word but the two of the counter. -/
theorem inp_ccBlock (k : ChaCha) {j : Fin 16} (h12 : j ≠ 12) (h13 : j ≠ 13) : (ccBlock k).inp[j] = k.inp[j] := by
  have hset : (ccBlock k).inp = (k.inp.set (12 : Fin 16) (lo32 (ccCounter k + 1))).set (13 : Fin 16)
    (hi32 (ccCounter k + 1)) := rfl
  rw [hset, getElem_set_fin, if_neg h13, getElem_set_fin, if_neg h12]

/-- R183, R184: a word of a new block. -/
theorem blk_ccBlock (k : ChaCha) (j : Fin 16) :
    (ccBlock k).blk[j] = (Nat.repeat doubleRound 10 k.inp)[j] + k.inp[j] :=
  Vector.getElem_zipWith j.isLt

theorem ccNext32_of_lt {k : ChaCha} (h : k.pos.val < 16) :
    ccNext32 k = (k.blk[k.pos.val], ⟨k.inp, k.blk, ⟨k.pos.val + 1, by omega⟩⟩) := dif_pos h

theorem ccNext32_of_consumed {k : ChaCha} (h : k.pos.val = 16) :
    ccNext32 k = ((ccBlock k).blk[0], ⟨(ccBlock k).inp, (ccBlock k).blk, 1⟩) := dif_neg (by omega)

/-- Settles O53: the two branches of the draw, the second with the block that ccBlock makes. -/
theorem chaChaDrawAndBlock : Obligations.ChaChaDrawAndBlock := by
  intro k columns diagonals
  exact ⟨ccNext32_of_lt, fun h => ⟨ccBlock k, ccNext32_of_consumed h, blk_ccBlock k, ccCounter_ccBlock k,
    fun _ => inp_ccBlock k⟩⟩

end Sys2Proof.Machine
end

section
/-! PROOFS. The configuration commands of the engines (spec/41_configure.md R200, R201, R204, R206 to R209). -/

namespace Sys2Proof.Machine

theorem takeSeed_fst (e : Bool) (s : State) : (takeSeed e s).1 = seedOf e s := takeSeed_value e s

/-- A CFG.* command that takes its seed, and `more` other free values, completes (R200, R201). -/
theorem configure_takeSeed (i : Instr) (g : Engine) (more : Nat) (s : State) :
    configure i g (takeSeed i.flagE s).1
        { (takeSeed i.flagE s).2 with fresh := (takeSeed i.flagE s).2.fresh + more } =
      .next (configuredState i.slot g i.flagE more s) := by
  rw [configure_eq, configuredState, takeSeed_fst]
  cases i.flagE <;> rfl

theorem exec_cfgXs (slot : SlotNum) (e : Bool) (s : State) :
    exec (.cfgXs slot e) s = .next (configuredState slot (.xs (xsSeed (seedOf e s))) e 0 s) := by
  rw [← takeSeed_fst]
  exact configure_takeSeed (.cfgXs slot e) _ 0 s

theorem exec_cfgMt (slot : SlotNum) (e : Bool) (s : State) :
    exec (.cfgMt slot e) s = .next (configuredState slot (.mt (mtInit (lo32 (seedOf e s)))) e 0 s) := by
  rw [← takeSeed_fst]
  exact configure_takeSeed (.cfgMt slot e) _ 0 s

theorem exec_cfgCc (slot : SlotNum) (e d : Bool) (s : State) : exec (.cfgCc slot e d) s =
    .next (configuredState slot (.cc (ccInit Config.chachaPad (Config.blkFree (takeSeed e s).2.fresh) (seedOf e s)
      (ccStream d s))) e 1 s) := by
  rw [← takeSeed_fst]
  exact configure_takeSeed (.cfgCc slot e d) _ 1 s

theorem exec_cfgPcg_of_even {d : Bool} {s : State} (h : (pcgIncrement d s).getLsbD 0 = false) (slot : SlotNum)
    (e : Bool) : exec (.cfgPcg slot e d) s = .next (errorState .configurationError (.cfgPcg slot e d) s) := if_pos h

theorem exec_cfgPcg_of_odd {d : Bool} {s : State} (h : (pcgIncrement d s).getLsbD 0 = true) (slot : SlotNum)
    (e : Bool) : exec (.cfgPcg slot e d) s =
      .next (configuredState slot (.pcg (pcgInit (seedOf e s) (pcgIncrement d s))) e 0 s) := by
  rw [← takeSeed_fst]
  exact (if_neg (by rw [h]; decide)).trans (configure_takeSeed (.cfgPcg slot e d) _ 0 s)

theorem exec_cfgCmwc_of_bad {d : Bool} {s : State} (h : cmwcCycleOk (cmwcCycle d s) = false) (slot : SlotNum)
    (e : Bool) : exec (.cfgCmwc slot e d) s = .next (errorState .configurationError (.cfgCmwc slot e d) s) := if_pos h

theorem exec_cfgCmwc_of_ok {d : Bool} {s : State} (h : cmwcCycleOk (cmwcCycle d s) = true) (slot : SlotNum)
    (e : Bool) : exec (.cfgCmwc slot e d) s =
      .next (configuredState slot (.cmwc (cmwcInit (seedOf e s) (cmwcCycle d s).toNat)) e 0 s) := by
  rw [← takeSeed_fst]
  exact (if_neg (by rw [h]; decide)).trans (configure_takeSeed (.cfgCmwc slot e d) _ 0 s)

/-- Settles O23: the seeded words are the first four outputs. -/
theorem cfgXsConfigures : Obligations.CfgXsConfigures := by
  intro slot e s
  refine ⟨⟨rfl, rfl, rfl, rfl⟩, ?_⟩
  rw [exec_cfgXs, xsSeed_eq]

/-- Settles O25: the words of MT_INIT, from the low half of the seed on. -/
theorem cfgMtConfigures : Obligations.CfgMtConfigures := by
  intro slot e s
  exact ⟨⟨rfl, rfl, rfl, rfl⟩, mtInit (lo32 (seedOf e s)), exec_cfgMt slot e s, rfl, rfl,
    fun i h => getElem_mtInit_succ _ h⟩

theorem getLsbD_zero_eq_decide (x : Word) : x.getLsbD 0 = decide (x.toNat % 2 = 1) := Nat.testBit_zero x.toNat

/-- Settles O26: bit 0 of the increment decides, and the seeding is the two LCG steps of R164. -/
theorem cfgPcgConfigures : Obligations.CfgPcgConfigures := by
  intro slot e d s inc
  refine ⟨⟨rfl, rfl, rfl, rfl⟩, fun heven => ?_, fun hodd => ?_⟩
  · exact exec_cfgPcg_of_even ((getLsbD_zero_eq_decide inc).trans (decide_eq_false (by omega))) slot e
  · exact exec_cfgPcg_of_odd ((getLsbD_zero_eq_decide inc).trans (decide_eq_true hodd)) slot e

/-- Settles O28: the block input of R182, consumed. -/
theorem cfgCcConfigures : Obligations.CfgCcConfigures := by
  intro slot e d s
  exact ⟨⟨rfl, rfl, rfl, rfl⟩, _, exec_cfgCc slot e d s⟩

theorem cmwcCycleOk_iff {cycle : Word} : cmwcCycleOk cycle = true ↔
    16 ≤ cycle.toNat ∧ cycle &&& (cycle - 1) = 0 ∧ cycle.toNat ≤ 65536 := by
  simp only [cmwcCycleOk, Bool.and_eq_true, decide_eq_true_eq, beq_iff_eq, and_assoc]

/-- Settles O27: the cycle's checks are those of R208, and the table and the carry are successive outputs. -/
theorem cfgCmwcConfigures : Obligations.CfgCmwcConfigures := by
  intro slot e d s cycle
  refine ⟨⟨rfl, rfl, rfl, rfl⟩, fun hbad => exec_cfgCmwc_of_bad ?_ slot e, fun hmin hpow hmax => ?_⟩
  · refine Bool.eq_false_iff.mpr fun hok : cmwcCycleOk cycle = true => ?_
    obtain ⟨hmin, hpow, hmax⟩ := cmwcCycleOk_iff.mp hok
    rcases hbad with hlt | hne | hgt
    · omega
    · exact hne hpow
    · omega
  · obtain ⟨r, hcarry, hlt, hfirst⟩ := exists_carry_cmwcInit (seedOf e s) cycle.toNat
    have hok : cmwcCycleOk cycle = true := cmwcCycleOk_iff.mpr ⟨hmin, hpow, hmax⟩
    refine ⟨_, r, exec_cfgCmwc_of_ok hok slot e, rfl, smExpand32_length _ _, rfl, fun j hj => ?_, hcarry, hlt,
      fun r' hr' => Nat.not_lt.mp (hfirst r' hr')⟩
    exact (getD_smExpand32 (seedOf e s) hj).trans (by rw [smNext64_smAfter])

end Sys2Proof.Machine
end

section
/-! PROOFS. The configuration commands CFG.SM and CFG.XSS (spec/41_configure.md R200, R201, R203, R205). -/

namespace Sys2Proof.Machine

/-- Settles O22: a configuration whose engine is the seed it takes. -/
theorem cfgSmConfigures : Obligations.CfgSmConfigures := by
  intro slot e s
  refine ⟨⟨rfl, rfl, rfl, rfl⟩, ?_⟩
  rw [← takeSeed_fst]
  exact configure_takeSeed (.cfgSm slot e) _ 0 s

/-- The check of R205, word by word, is that the whole vector is zero. -/
theorem eq_zeros_iff (v : Vector Word 4) : v = #v[0, 0, 0, 0] ↔ v[0] = 0 ∧ v[1] = 0 ∧ v[2] = 0 ∧ v[3] = 0 := by
  refine ⟨fun h => h ▸ ⟨rfl, rfl, rfl, rfl⟩, fun ⟨h0, h1, h2, h3⟩ => Vector.ext fun i hi => ?_⟩
  match i with
  | 0 => exact h0
  | 1 => exact h1
  | 2 => exact h2
  | 3 => exact h3

theorem exec_cfgXss_of_zero {s : State} (h : s.arg = #v[0, 0, 0, 0]) (slot : SlotNum) :
    exec (.cfgXss slot) s = .next (errorState .configurationError (.cfgXss slot) s) :=
  if_pos ((eq_zeros_iff s.arg).mp h)

theorem exec_cfgXss_of_nonzero {s : State} (h : s.arg ≠ #v[0, 0, 0, 0]) (slot : SlotNum) : exec (.cfgXss slot) s =
    .next { s.setSlot slot (.xs ⟨s.arg[0], s.arg[1], s.arg[2], s.arg[3]⟩) with code := .ok } :=
  if_neg fun hwords => h ((eq_zeros_iff s.arg).mpr hwords)

/-- Settles O24: the branches of the zero check of R205. -/
theorem cfgXssConfigures : Obligations.CfgXssConfigures := by
  intro slot s
  exact ⟨⟨rfl, rfl, rfl, rfl⟩, fun h => exec_cfgXss_of_zero h slot, fun h => exec_cfgXss_of_nonzero h slot⟩

end Sys2Proof.Machine
end

section
/-! PROOFS. The draws of the contract by native width (spec/42_contract.md R230), and the words of a run of draws. -/

namespace Sys2Proof.Machine

/-- A 64-bit engine (R27) answers its word, or the high half of it. -/
theorem draws_of_width64 {g : Engine} (hw : nativeWidth g = 64) :
    draw64 g = native g ∧ draw32 g = (hi32 (native g).1, (native g).2) :=
  ⟨if_pos hw, if_neg (by omega)⟩

/-- A 32-bit engine (R27) answers two successive words, the first one high, or its one word. -/
theorem draws_of_width32 {g g' g'' : Engine} {x y : Word32} (hw : nativeWidth g = 32)
    (hfirst : native g = (zext64 x, g')) (hsecond : native g' = (zext64 y, g'')) :
    draw64 g = (concat64 x y, g'') ∧ draw32 g = (x, g') := by
  constructor
  · simp [draw64, hw, hfirst, hsecond]
  · simp [draw32, hw, hfirst]

/-- Settles O35: the two native widths, engine by engine. -/
theorem drawsByNativeWidth : Obligations.DrawsByNativeWidth :=
  ⟨fun t => draws_of_width64 (g := .sm t) rfl, fun x => draws_of_width64 (g := .xs x) rfl,
    fun m => draws_of_width32 (g := .mt m) rfl rfl rfl, fun p => draws_of_width32 (g := .pcg p) rfl rfl rfl,
    fun k => draws_of_width32 (g := .cmwc k) rfl rfl rfl, fun c => draws_of_width32 (g := .cc c) rfl rfl rfl⟩

/-- Draw number n + 1 of an engine is draw number n of the engine after its first draw. -/
theorem drawAfter_succ (g : Engine) (n : Nat) : drawAfter g (n + 1) = drawAfter (draw64 g).2 n := by
  induction n with
  | zero => rfl
  | succ n ih => rw [drawAfter, ih, drawAfter]

theorem drawNumber_succ (g : Engine) (n : Nat) : drawNumber g (n + 1) = drawNumber (draw64 g).2 n := by
  rw [drawNumber, drawAfter_succ, drawNumber]

end Sys2Proof.Machine
end

section
/-! PROOFS. The unit double (spec/42_contract.md R234): rounding answers a representable magnitude as it is, and the top
53 bits of a draw are a significand, so neither of the two roundings changes a value. -/

namespace Sys2Proof.Machine

/-! Exact rounding. -/

/-- A magnitude that low bits stand for is nearest to those low bits alone. -/
theorem NearestLow.eq_of_unitsOfLow {n c : ℕ} (h : NearestLow (unitsOfLow c) n) : n = c := by
  obtain ⟨hlt, hgt, -⟩ := h c
  rcases lt_trichotomy n c with hc | hc | hc
  · have := unitsOfLow_real_lt hc
    linarith [hlt hc]
  · exact hc
  · have := unitsOfLow_real_lt hc
    linarith [hgt hc]

/-- Low bits up to those of the infinities survive the rounding of the magnitude that they stand for. -/
theorem low_roundTo_unitsOfLow (s : Bool) (k : ℕ) {n : ℕ} (hn : n ≤ F64.infinityLow) :
    (roundTo s (unitsOfLow n * 2 ^ k) k).low = n := by
  have hnear := nearestLow_roundLow (roundsLike_div (unitsOfLow n * 2 ^ k) k)
  rw [Nat.cast_mul, Nat.cast_pow, Nat.cast_ofNat, mul_div_cancel_right₀ _ (by positivity)] at hnear
  rw [low_roundTo, hnear.eq_of_unitsOfLow, Nat.min_eq_left hn]

/-- A significand that is not normalised is representable at every scale: its leading zeros lower the exponent. -/
theorem exists_unitsOfLow_eq {q : ℕ} (e : ℕ) (hq : q < 2 ^ 53) : ∃ n, unitsOfLow n = q * 2 ^ e := by
  induction e generalizing q with
  | zero => exact ⟨0 * 2 ^ 52 + q, unitsOfLow_scaled hq.le (.inl rfl)⟩
  | succ e ih =>
    rcases Nat.lt_or_ge q (2 ^ 52) with hlt | hge
    · obtain ⟨n, hn⟩ := ih (q := 2 * q) (by omega)
      exact ⟨n, by rw [hn]; ring⟩
    · exact ⟨_, unitsOfLow_scaled hq.le (.inr hge)⟩

theorem mul_two_pow_lt {a b j k : ℕ} (hab : a < b) (hjk : j ≤ k) : a * 2 ^ j < b * 2 ^ k :=
  Nat.mul_lt_mul_of_lt_of_le hab (Nat.pow_le_pow_right two_pos hjk) (Nat.two_pow_pos k)

/-- A magnitude of at most 53 significant bits, well inside the finite range, is rounded to itself. -/
theorem roundTo_exact (s : Bool) (k : ℕ) {q e : ℕ} (hq : q < 2 ^ 53) (he : e ≤ 2044) :
    (roundTo s (q * 2 ^ e * 2 ^ k) k).isFinite = true ∧ (roundTo s (q * 2 ^ e * 2 ^ k) k).magnitude = q * 2 ^ e := by
  obtain ⟨n, hn⟩ := exists_unitsOfLow_eq e hq
  have hfin : n < F64.infinityLow := by
    rw [← unitsOfLow_strictMono.lt_iff_lt, hn, unitsOfLow_infinityLow]
    exact mul_two_pow_lt (by omega) he
  rw [← hn, F64.isFinite_iff, F64.magnitude_eq, low_roundTo_unitsOfLow s k hfin.le]
  exact ⟨hfin, rfl⟩

/-! The conversion. -/

theorem F64.magnitude_of_low {a : F64} {e q : ℕ} (h : a.low = e * 2 ^ 52 + q) (hq : q ≤ 2 ^ 53)
    (he : e = 0 ∨ 2 ^ 52 ≤ q) : a.magnitude = q * 2 ^ e := by
  rw [F64.magnitude_eq, h, unitsOfLow_scaled hq he]

theorem F64.units_of_positive {a : F64} (h : a.sign = false) : a.units = a.magnitude := by
  rw [F64.units, h]; rfl

/-- The factor 2^-53 of R234. -/
theorem magnitude_unitFactor : F64.magnitude 0x3CA0000000000000#64 = 2 ^ 1021 := by
  rw [F64.magnitude_of_low (e := 969) (q := 2 ^ 52) (by decide) (by omega) (.inr le_rfl), ← pow_add]

/-- toF64 is exact below 2^53 (R234). -/
theorem toF64_exact {n : ℕ} (hn : n < 2 ^ 53) : (toF64 n).isFinite = true ∧ (toF64 n).magnitude = n * 2 ^ 1074 := by
  have h := roundTo_exact false 0 hn (e := 1074) (by omega)
  rwa [pow_zero, mul_one] at h

@[simp] theorem sign_toF64 (n : ℕ) : (toF64 n).sign = false := sign_roundTo false _ 0

/-- The top 53 bits of a draw are a significand. -/
theorem ushiftRight_11_lt (x : Word) : (x >>> 11).toNat < 2 ^ 53 := by
  have := x.isLt
  rw [BitVec.toNat_ushiftRight, Nat.shiftRight_eq_div_pow]
  omega

/-- The product is the top 53 bits of the draw in units of 2^-53, which are 2^1021 units of 2^-1074. -/
theorem toUnitDouble_eq_roundTo (x : Word) :
    toUnitDouble x = roundTo false ((x >>> 11).toNat * 2 ^ 1021 * 2 ^ 1074) 1074 := by
  obtain ⟨hfin, hmag⟩ := toF64_exact (ushiftRight_11_lt x)
  rw [toUnitDouble, fmul_of_isFinite _ hfin (by decide), hmag, magnitude_unitFactor, mul_right_comm, sign_toF64]
  rfl

@[simp] theorem sign_toUnitDouble (x : Word) : (toUnitDouble x).sign = false := by
  rw [toUnitDouble_eq_roundTo, sign_roundTo]

@[simp] theorem isFinite_toUnitDouble (x : Word) : (toUnitDouble x).isFinite = true := by
  rw [toUnitDouble_eq_roundTo]
  exact (roundTo_exact false 1074 (ushiftRight_11_lt x) (by omega)).1

theorem units_toUnitDouble (x : Word) : (toUnitDouble x).units = ((x >>> 11).toNat * 2 ^ 1021 : ℕ) := by
  rw [F64.units_of_positive (sign_toUnitDouble x), toUnitDouble_eq_roundTo,
    (roundTo_exact false 1074 (ushiftRight_11_lt x) (by omega)).2]

/-- The exact value of R234. -/
theorem units_toUnitDouble_mul (x : Word) : (toUnitDouble x).units * 2 ^ 53 = (x >>> 11).toNat * 2 ^ 1074 := by
  rw [units_toUnitDouble, Nat.cast_mul, Nat.cast_pow, Nat.cast_ofNat, mul_assoc, ← pow_add]

/-! The bounds. -/

/-- Values at the same scale compare as their significands. -/
theorem flt_of_scaled {a b : F64} {e m n : ℕ} (ha : a.isFinite = true) (hb : b.isFinite = true)
    (hm : a.units = (m * 2 ^ e : ℕ)) (hn : b.units = (n * 2 ^ e : ℕ)) : flt a b = decide (m < n) := by
  obtain ⟨hflt, -⟩ := lessThanComparesValues a b
  rw [hflt ha hb, hm, hn, decide_eq_decide, Int.ofNat_lt]
  exact Nat.mul_lt_mul_right (Nat.two_pow_pos e)

/-- 1 - 2^-53, the greatest binary64 below 1. -/
theorem units_greatestBelowOne : F64.units 0x3FEFFFFFFFFFFFFF = ((2 ^ 53 - 1) * 2 ^ 1021 : ℕ) := by
  rw [F64.units_of_positive (by decide),
    F64.magnitude_of_low (e := 1021) (q := 2 ^ 53 - 1) (by decide) (by omega) (by omega)]

theorem units_one : F64.units 0x3FF0000000000000 = (2 ^ 53 * 2 ^ 1021 : ℕ) := by
  rw [F64.units_of_positive (by decide), F64.magnitude_of_low (e := 1021) (q := 2 ^ 53) (by decide) le_rfl (by omega)]

theorem not_greatestBelowOne_flt_toUnitDouble (x : Word) : flt 0x3FEFFFFFFFFFFFFF (toUnitDouble x) = false := by
  have := ushiftRight_11_lt x
  rw [flt_of_scaled (by decide) (isFinite_toUnitDouble x) units_greatestBelowOne (units_toUnitDouble x)]
  exact decide_eq_false (by omega)

theorem toUnitDouble_flt_one (x : Word) : flt (toUnitDouble x) 0x3FF0000000000000 = true := by
  rw [flt_of_scaled (isFinite_toUnitDouble x) (by decide) (units_toUnitDouble x) units_one]
  exact decide_eq_true (ushiftRight_11_lt x)

/-- Settles O55: neither the conversion nor the product rounds. -/
theorem unitDoubleIsExact : Obligations.UnitDoubleIsExact := fun x =>
  ⟨isFinite_toUnitDouble x, sign_toUnitDouble x, units_toUnitDouble_mul x, not_greatestBelowOne_flt_toUnitDouble x⟩

end Sys2Proof.Machine
end

section
/-! PROOFS. The contract commands that answer in RES[0] (spec/42_contract.md R231 to R237). -/

namespace Sys2Proof.Machine

theorem exec_next64_of_configured {slot : SlotNum} {s : State} {g : Engine} (h : s.slot slot = some g) :
    exec (.next64 slot) s = .next { s.setSlot slot (draw64 g).2 with res0 := (draw64 g).1, code := .ok } :=
  onEngine_some (i := .next64 slot) h

theorem exec_next32_of_configured {slot : SlotNum} {s : State} {g : Engine} (h : s.slot slot = some g) :
    exec (.next32 slot) s = .next { s.setSlot slot (draw32 g).2 with res0 := zext64 (draw32 g).1, code := .ok } :=
  onEngine_some (i := .next32 slot) h

theorem exec_nextDbl_of_configured {slot : SlotNum} {s : State} {g : Engine} (h : s.slot slot = some g) :
    exec (.nextDbl slot) s =
      .next { s.setSlot slot (draw64 g).2 with res0 := toUnitDouble (draw64 g).1, code := .ok } :=
  onEngine_some (i := .nextDbl slot) h

/-- Min above max is raised before the draw (R237). -/
theorem exec_nextInt_of_lt {slot : SlotNum} {s : State} {g : Engine} (h : s.slot slot = some g)
    (hlt : argInt s 1 < argInt s 0) :
    exec (.nextInt slot) s = .next (errorState .invalidArgument (.nextInt slot) s) :=
  (onEngine_some (i := .nextInt slot) h).trans (if_pos hlt)

theorem exec_nextInt_of_le {slot : SlotNum} {s : State} {g : Engine} (h : s.slot slot = some g)
    (hle : argInt s 0 ≤ argInt s 1) : exec (.nextInt slot) s =
      .next { s.setSlot slot (draw64 g).2 with
        res0 := ofInt64 (rangeReduce g (argInt s 0) (argInt s 1)).1, code := .ok } :=
  (onEngine_some (i := .nextInt slot) h).trans (if_neg hle.not_gt)

/-- Settles O29: the draw of the slot's engine. -/
theorem next64Result : Obligations.Next64Result := fun slot _ =>
  ⟨⟨rfl, rfl, rfl, rfl⟩, fun h => onEngine_empty (i := .next64 slot) h, fun _ hg => exec_next64_of_configured hg⟩

/-- Settles O30: the draw of the slot's engine, zero-extended. -/
theorem next32Result : Obligations.Next32Result := fun slot _ =>
  ⟨⟨rfl, rfl, rfl, rfl⟩, fun h => onEngine_empty (i := .next32 slot) h, fun _ hg => exec_next32_of_configured hg⟩

/-- Settles O31: the unit double of the draw. -/
theorem nextDblResult : Obligations.NextDblResult := fun slot _ =>
  ⟨⟨rfl, rfl, rfl, rfl⟩, fun h => onEngine_empty (i := .nextDbl slot) h, fun _ hg =>
    ⟨_, exec_nextDbl_of_configured hg, isFinite_toUnitDouble _, sign_toUnitDouble _, units_toUnitDouble_mul _,
      toUnitDouble_flt_one _⟩⟩

/-- A result between two signed words is the value of its word. -/
theorem toInt_ofInt64_rangeReduce (g : Engine) {lo hi : Word} (h : lo.toInt ≤ hi.toInt) :
    (ofInt64 (rangeReduce g lo.toInt hi.toInt).1).toInt = (rangeReduce g lo.toInt hi.toInt).1 := by
  obtain ⟨hlo, hhi⟩ := rangeReduce_bounds g h
  have hmin := BitVec.le_toInt lo
  have hmax := BitVec.toInt_lt (x := hi)
  exact BitVec.toInt_ofInt_eq_self (by omega) (by omega) (by omega)

/-- Settles O32: the reduced draw lies between the bounds, so its word has its value. -/
theorem nextIntResult : Obligations.NextIntResult := by
  intro slot s
  refine ⟨⟨rfl, rfl, rfl, rfl⟩, fun h => onEngine_empty (i := .nextInt slot) h,
    fun g hg => ⟨exec_nextInt_of_lt hg, fun hle => ⟨_, exec_nextInt_of_le hg hle, ?_⟩⟩⟩
  obtain ⟨hlo, hhi⟩ := rangeReduce_bounds g hle
  have hvalue := toInt_ofInt64_rangeReduce g hle
  exact ⟨hvalue, hlo.trans_eq hvalue.symm, hvalue.trans_le hhi⟩

end Sys2Proof.Machine
end

section
/-! PROOFS. NEXTBYTES (spec/42_contract.md R240, R241): the bytes of BUF as words (spec/20_memory.md R70), and the loop. -/

namespace Sys2Proof.Machine

/-! MemRead and MemWrite. -/

/-- Byte k of v without its lowest byte is byte k + 1 of v. -/
theorem extractLsb'_byte_ushiftRight (v : Word) (k : Nat) :
    (v >>> 8).extractLsb' (8 * k) 8 = v.extractLsb' (8 * (k + 1)) 8 := by
  apply BitVec.eq_of_toNat_eq
  rw [BitVec.extractLsb'_toNat, BitVec.extractLsb'_toNat, BitVec.toNat_ushiftRight, ← Nat.shiftRight_add, Nat.mul_succ,
    Nat.add_comm]

/-- Bytes that are those of v, least significant first, read as the low bytes of v. -/
theorem memRead_of_bytes {m : Memory} {a n : Nat} {v : Word}
    (h : ∀ k, k < n → m.read (a + k) = v.extractLsb' (8 * k) 8) : memRead m a n = v.toNat % 256 ^ n := by
  induction n generalizing a v with
  | zero => rw [memRead, pow_zero, Nat.mod_one]
  | succ n ih =>
    have hrest : memRead m (a + 1) n = (v >>> 8).toNat % 256 ^ n := by
      refine ih fun k hk => ?_
      rw [Nat.add_assoc, Nat.add_comm 1 k, h (k + 1) (by omega), extractLsb'_byte_ushiftRight]
    have hfirst : (m.read a).toNat = v.toNat % 256 := by
      rw [← Nat.add_zero a, h 0 n.succ_pos, BitVec.extractLsb'_toNat]
      rfl
    rw [memRead, hrest, hfirst, BitVec.toNat_ushiftRight, Nat.shiftRight_eq_div_pow, pow_succ' 256, Nat.mod_mul]

/-- What is read where n bytes were stored: the low n bytes of the value. -/
theorem memRead_memWrite {m : Memory} (hm : m.wf = true) {a n : Nat} (h : a + n ≤ Config.bufSize) (v : Word) :
    memRead (memWrite m a n v) a n = v.toNat % 256 ^ n := by
  refine memRead_of_bytes fun k hk => ?_
  rw [read_memWrite n m hm a _ v h, if_pos (by omega), Nat.add_sub_cancel_left]

/-! The loop. -/

/-- The slot's engine makes as many draws as the loop has turns (R240). -/
theorem fillBytes_engine (n a len : Nat) (g : Engine) (m : Memory) : (fillBytes n a len g m).1 = drawAfter g n := by
  induction n generalizing a len g m with
  | zero => rfl
  | succ n ih => rw [fillBytes, ih, drawAfter_succ]

/-- Byte i of the region is byte i mod 8 of draw i / 8 (R240). -/
theorem read_fillBytes_inside {n len i : Nat} (hi : i < len) (hn : len ≤ 8 * n) {a : Nat} {m : Memory}
    (hm : m.wf = true) (h : a + len ≤ Config.bufSize) (g : Engine) :
    (fillBytes n a len g m).2.read (a + i) = (drawNumber g (i / 8)).extractLsb' (8 * (i % 8)) 8 := by
  induction n generalizing i a len g m with
  | zero => omega
  | succ n ih =>
    have hm' := wf_memWrite (min 8 len) m hm a (draw64 g).1
    rw [fillBytes]
    rcases Nat.lt_or_ge i 8 with hlt | hge
    · rw [read_fillBytes_outside _ _ _ _ _ _ hm' (by omega) (by omega), read_memWrite _ m hm _ _ _ (by omega),
        if_pos (by omega), Nat.add_sub_cancel_left, Nat.div_eq_of_lt hlt, Nat.mod_eq_of_lt hlt]
      rfl
    · obtain ⟨j, rfl⟩ := Nat.exists_eq_add_of_le hge
      rw [Nat.min_eq_left (by omega)] at hm' ⊢
      rw [← Nat.add_assoc, ih (i := j) (by omega) (by omega) hm' (by omega), Nat.add_div_left j (by omega),
        Nat.add_mod_left, drawNumber_succ]

/-- What the ceil(len / 8) turns of the loop leave in BUF. -/
theorem read_fillBytes {a len : Nat} {m : Memory} (hm : m.wf = true) (h : a + len ≤ Config.bufSize) (g : Engine)
    (x : Nat) : (fillBytes ((len + 7) / 8) a len g m).2.read x =
      if a ≤ x ∧ x < a + len then (drawNumber g ((x - a) / 8)).extractLsb' (8 * ((x - a) % 8)) 8 else m.read x := by
  split_ifs with hx
  · obtain ⟨i, rfl⟩ := Nat.exists_eq_add_of_le hx.1
    rw [Nat.add_sub_cancel_left]
    exact read_fillBytes_inside (by omega) (by omega) hm h g
  · exact read_fillBytes_outside _ _ _ _ _ _ hm h (by omega)

/-! The command. -/

theorem exec_nextBytes_of_gt {slot : SlotNum} {s : State} {g : Engine} (h : s.slot slot = some g)
    (hgt : Config.bufSize < argNat s 0 + argNat s 1) :
    exec (.nextBytes slot) s = .next (errorState .bufferRange (.nextBytes slot) s) :=
  (onEngine_some (i := .nextBytes slot) h).trans (if_pos hgt)

theorem exec_nextBytes_of_le {slot : SlotNum} {s : State} {g : Engine} (h : s.slot slot = some g)
    (hle : argNat s 0 + argNat s 1 ≤ Config.bufSize) : exec (.nextBytes slot) s =
      .next { s.setSlot slot (drawAfter g ((argNat s 1 + 7) / 8)) with
        buf := (fillBytes ((argNat s 1 + 7) / 8) (argNat s 0) (argNat s 1) g s.buf).2, code := .ok } := by
  rw [← fillBytes_engine _ (argNat s 0) (argNat s 1) g s.buf]
  exact (onEngine_some (i := .nextBytes slot) h).trans (if_neg hle.not_gt)

/-- Settles O33: the loop writes the draws in order, and only inside the region. -/
theorem nextBytesResult : Obligations.NextBytesResult := fun slot _ =>
  ⟨⟨rfl, rfl, rfl, rfl⟩, fun h => onEngine_empty (i := .nextBytes slot) h, fun g hg =>
    ⟨exec_nextBytes_of_gt hg, fun hle hwf => ⟨_, exec_nextBytes_of_le hg hle, wf_fillBytes _ _ _ _ _ hwf,
      read_fillBytes hwf hle g⟩⟩⟩

/-- Settles O34: one turn of the loop stores the whole word that NEXT64 answers. -/
theorem eightBytesAreTheWord : Obligations.EightBytesAreTheWord := by
  intro slot s g hwf hg hlen hle
  have hlen' : argNat s 1 = 8 := congrArg BitVec.toNat hlen
  refine ⟨_, _, exec_nextBytes_of_le hg (by rwa [hlen']), exec_next64_of_configured hg, ?_, ?_⟩
  · rw [hlen']
    exact (memRead_memWrite hwf hle (draw64 g).1).trans (Nat.mod_eq_of_lt (draw64 g).1.isLt)
  · rw [hlen']
    rfl

end Sys2Proof.Machine
end

section
/-! PROOFS. The contract commands are functions of the slot state and ARG alone (spec/42_contract.md R242). -/

namespace Sys2Proof.Machine

/-- Two outcomes are next states with the same code and the same record in slots j and k, and with the same results P
where the command completed. -/
def SameResults (j k : SlotNum) (P : State → State → Prop) (x y : Host.Outcome State Fault Refusal) : Prop :=
  ∃ t v, x = .next t ∧ y = .next v ∧ t.code = v.code ∧ t.slot j = v.slot k ∧ (t.code = .ok → P t v)

section
variable {j k : SlotNum} {P : State → State → Prop} {s u : State}

theorem sameResults_raiseFor {e : ErrorCode} (he : e ≠ .ok) (i i' : Instr) (h : s.slot j = u.slot k) :
    SameResults j k P (raiseFor e i s) (raiseFor e i' u) :=
  ⟨_, _, rfl, rfl, rfl, h, fun hok => absurd hok he⟩

theorem sameResults_complete {s' u' : State} (h : s'.slot j = u'.slot k)
    (hP : P { s' with code := .ok } { u' with code := .ok }) : SameResults j k P (complete s') (complete u') :=
  ⟨_, _, rfl, rfl, rfl, h, fun _ => hP⟩

theorem sameResults_completeWith (i i' : Instr) (g : Engine) (r : Word) :
    SameResults i.slot i'.slot (fun t v => t.res0 = v.res0) (completeWith i g r s) (completeWith i' g r u) :=
  sameResults_complete ((setSlot_slot_same s _ g).trans (setSlot_slot_same u _ g).symm) rfl

/-- A check on ARG, which both commands pass or both fail. -/
theorem sameResults_ite {c : Prop} [Decidable c] {x x' y y' : Host.Outcome State Fault Refusal}
    (hx : c → SameResults j k P x x') (hy : ¬c → SameResults j k P y y') :
    SameResults j k P (if c then x else y) (if c then x' else y') := by
  split
  · exact hx ‹_›
  · exact hy ‹_›

/-- Both commands find the same engine, or both slots EMPTY. -/
theorem sameResults_onEngine (i i' : Instr) (h : s.slot i.slot = u.slot i'.slot)
    {f f' : Engine → Host.Outcome State Fault Refusal} (hf : ∀ g, SameResults i.slot i'.slot P (f g) (f' g)) :
    SameResults i.slot i'.slot P (onEngine i s f) (onEngine i' u f') := by
  cases hg : s.slot i.slot with
  | none =>
    rw [onEngine_empty hg, onEngine_empty (h ▸ hg)]
    exact sameResults_raiseFor (by decide) i i' h
  | some g =>
    rw [onEngine_some hg, onEngine_some (h ▸ hg)]
    exact hf g

/-- Two commands whose next engine d and result r depend on the engine alone. -/
theorem sameResults_draw (i i' : Instr) (h : s.slot i.slot = u.slot i'.slot) (d : Engine → Engine)
    (r : Engine → Word) : SameResults i.slot i'.slot (fun t v => t.res0 = v.res0)
      (onEngine i s fun g => completeWith i (d g) (r g) s) (onEngine i' u fun g => completeWith i' (d g) (r g) u) :=
  sameResults_onEngine i i' h fun g => sameResults_completeWith i i' (d g) (r g)

/-- A NEXTINT of two states with the same ARG has the same bounds. -/
theorem sameResults_nextInt (harg : s.arg = u.arg) (h : s.slot j = u.slot k) :
    SameResults j k (fun t v => t.res0 = v.res0) (exec (.nextInt j) s) (exec (.nextInt k) u) := by
  have hint : argInt u = argInt s := funext fun i => by rw [argInt, argInt, harg]
  refine sameResults_onEngine (.nextInt j) (.nextInt k) h fun g => ?_
  rw [hint]
  exact sameResults_ite (fun _ => sameResults_raiseFor (by decide) _ _ h)
    fun _ => sameResults_completeWith (.nextInt j) (.nextInt k) _ _

/-- A NEXTBYTES of two states with the same ARG writes the same draws into the same region. -/
theorem sameResults_nextBytes (harg : s.arg = u.arg) (h : s.slot j = u.slot k) (hs : s.buf.wf = true)
    (hu : u.buf.wf = true) :
    SameResults j k (fun t v => ∀ x, argNat s 0 ≤ x → x < argNat s 0 + argNat s 1 → t.buf.read x = v.buf.read x)
      (exec (.nextBytes j) s) (exec (.nextBytes k) u) := by
  have hnat : argNat u = argNat s := funext fun i => by rw [argNat, argNat, harg]
  refine sameResults_onEngine (.nextBytes j) (.nextBytes k) h fun g => ?_
  rw [hnat]
  refine sameResults_ite (fun _ => sameResults_raiseFor (by decide) _ _ h) fun hle =>
    sameResults_complete ?_ fun x hlo hhi => ?_
  · simp only [fillBytes_engine]
    exact (setSlot_slot_same s j _).trans (setSlot_slot_same u k _).symm
  · have hle' := Nat.not_lt.mp hle
    simp only [read_fillBytes hs hle', read_fillBytes hu hle', if_pos (And.intro hlo hhi)]

end

/-- Settles O21: each command finds the same engine, and takes its operands from ARG. -/
theorem sameSlotStateSameResults : Obligations.SameSlotStateSameResults := by
  intro j k s u harg h
  refine ⟨fun f hf => ?_, fun hs hu => sameResults_nextBytes harg h hs hu⟩
  simp only [List.mem_cons, List.not_mem_nil, or_false] at hf
  rcases hf with rfl | rfl | rfl | rfl
  · exact sameResults_draw (.next64 j) (.next64 k) h (fun g => (draw64 g).2) _
  · exact sameResults_draw (.next32 j) (.next32 k) h (fun g => (draw32 g).2) _
  · exact sameResults_draw (.nextDbl j) (.nextDbl k) h (fun g => (draw64 g).2) _
  · exact sameResults_nextInt harg h

end Sys2Proof.Machine
end

section
/-! PROOFS. The facade commands that reduce one draw to a result in RES[0] (spec/43_facade.md R260 to R264, R268 to
R272): a reduction between natural bounds (spec/42_contract.md R236) is one of natural numbers. -/

namespace Sys2Proof.Machine

/-- The reduction (R236) without signs. -/
theorem rangeReduce_natCast (g : Engine) {lo hi : Nat} (h : lo ≤ hi) :
    (rangeReduce g lo hi).1 = (lo + (draw64 g).1.toNat % (hi - lo + 1) : Nat) := by
  rw [rangeReduce, Int.natCast_add, Int.natCast_emod, Int.natCast_add, Int.natCast_sub h, Int.natCast_one]

theorem ofInt64_natCast (n : Nat) : ofInt64 n = BitVec.ofNat 64 n := BitVec.ofInt_natCast 64 n

/-- The percent draw of NEXTPCT and GAMBLE (R260, R262). -/
theorem rangeReduce_percent (g : Engine) : (rangeReduce g 1 100).1 = (1 + (draw64 g).1.toNat % 100 : Nat) :=
  rangeReduce_natCast g (lo := 1) (hi := 100) (by decide)

/-- The reduction of NEXTINDEX and of SHUFFLE's index (R272, R275). -/
theorem rangeReduce_below (g : Engine) (n : Nat) : (rangeReduce g 0 n).1 = ((draw64 g).1.toNat % (n + 1) : Nat) := by
  rw [← Nat.zero_add (_ % _)]
  exact rangeReduce_natCast g n.zero_le

/-- A result between two unsigned words is the value of its word. -/
theorem toNat_ofInt64_rangeReduce (g : Engine) {lo hi : Word} (h : lo.toNat ≤ hi.toNat) :
    (ofInt64 (rangeReduce g lo.toNat hi.toNat).1).toNat =
      lo.toNat + (draw64 g).1.toNat % (hi.toNat - lo.toNat + 1) := by
  have hle := (rangeReduce_bounds g (Int.ofNat_le.mpr h)).2
  have hhi := hi.isLt
  rw [rangeReduce_natCast g h] at hle ⊢
  rw [ofInt64_natCast, BitVec.toNat_ofNat, Nat.mod_eq_of_lt (by omega)]

/-- The constraint on the OPEN parameters of NEXTCHAR (R20, R270). -/
theorem charLo_le_charHi : Config.charLo.toNat ≤ Config.charHi.toNat := by
  rw [Config.charHi]
  split
  · assumption
  · exact le_rfl

section
variable {slot : SlotNum} {s : State} {g : Engine} (h : s.slot slot = some g)
include h

theorem exec_nextPct_of_configured : exec (.nextPct slot) s =
    .next { s.setSlot slot (draw64 g).2 with res0 := ofInt64 (rangeReduce g 1 100).1, code := .ok } :=
  onEngine_some (i := .nextPct slot) h

theorem exec_gamble_of_configured : exec (.gamble slot) s =
    .next { s.setSlot slot (draw64 g).2 with
      res0 := if (rangeReduce g 1 100).1 ≤ argInt s 0 then 1 else 0, code := .ok } :=
  onEngine_some (i := .gamble slot) h

theorem exec_gambleD_of_configured : exec (.gambleD slot) s =
    .next { s.setSlot slot (draw64 g).2 with
      res0 := if flt (toUnitDouble (draw64 g).1) s.arg[0] then 1 else 0, code := .ok } :=
  onEngine_some (i := .gambleD slot) h

theorem exec_nextBool_of_configured : exec (.nextBool slot) s =
    .next { s.setSlot slot (draw64 g).2 with res0 := ofInt64 (rangeReduce g 0 1).1, code := .ok } :=
  onEngine_some (i := .nextBool slot) h

theorem exec_nextChar_of_configured : exec (.nextChar slot) s =
    .next { s.setSlot slot (draw64 g).2 with
      res0 := ofInt64 (rangeReduce g Config.charLo.toNat Config.charHi.toNat).1, code := .ok } :=
  onEngine_some (i := .nextChar slot) h

/-- Length 0 is raised before the draw (R272). -/
theorem exec_nextIndex_of_zero (hzero : s.arg[0] = 0) :
    exec (.nextIndex slot) s = .next (errorState .invalidArgument (.nextIndex slot) s) :=
  (onEngine_some (i := .nextIndex slot) h).trans (if_pos hzero)

theorem exec_nextIndex_of_nonzero (hn : s.arg[0] ≠ 0) : exec (.nextIndex slot) s =
    .next { s.setSlot slot (draw64 g).2 with
      res0 := ofInt64 (rangeReduce g 0 ((s.arg[0].toNat : Int) - 1)).1, code := .ok } :=
  (onEngine_some (i := .nextIndex slot) h).trans (if_neg hn)

end

/-- Settles O36: the percent draw, as its word. -/
theorem nextPctResult : Obligations.NextPctResult := by
  intro slot s
  refine ⟨⟨rfl, rfl, rfl, rfl⟩, fun h => onEngine_empty (i := .nextPct slot) h, fun g hg => ?_⟩
  rw [exec_nextPct_of_configured hg, rangeReduce_percent, ofInt64_natCast]

/-- Settles O37: the percent draw is compared with the signed threshold. -/
theorem gambleResult : Obligations.GambleResult := by
  intro slot s
  refine ⟨⟨rfl, rfl, rfl, rfl⟩, fun h => onEngine_empty (i := .gamble slot) h, fun g hg => ?_⟩
  rw [exec_gamble_of_configured hg, rangeReduce_percent]
  rfl

/-- Settles O38: the unit double of the draw is compared with the probability. -/
theorem gambleDResult : Obligations.GambleDResult := fun slot _ =>
  ⟨⟨rfl, rfl, rfl, rfl⟩, fun h => onEngine_empty (i := .gambleD slot) h, fun _ hg => exec_gambleD_of_configured hg⟩

/-- The reduction of NEXTBOOL (R268) is the lowest bit of the draw. -/
theorem ofInt64_rangeReduce_bool (g : Engine) :
    ofInt64 (rangeReduce g 0 1).1 = if (draw64 g).1.getLsbD 0 then 1 else 0 := by
  rw [← Int.natCast_one, rangeReduce_below, ofInt64_natCast, getLsbD_zero_eq_decide]
  rcases Nat.mod_two_eq_zero_or_one (draw64 g).1.toNat with hbit | hbit <;> simp [hbit]

/-- Settles O40: the draw modulo 2 is its bit 0. -/
theorem nextBoolResult : Obligations.NextBoolResult := by
  intro slot s
  refine ⟨⟨rfl, rfl, rfl, rfl⟩, fun h => onEngine_empty (i := .nextBool slot) h, fun g hg => ?_⟩
  rw [exec_nextBool_of_configured hg, ofInt64_rangeReduce_bool]

/-- Settles O41: the reduced draw is at most CHAR_HI, so its word has its value. -/
theorem nextCharResult : Obligations.NextCharResult := by
  intro slot s
  refine ⟨⟨rfl, rfl, rfl, rfl⟩, fun h => onEngine_empty (i := .nextChar slot) h,
    fun g hg => ⟨_, exec_nextChar_of_configured hg, ?_⟩⟩
  have hle := charLo_le_charHi
  have hmod : (draw64 g).1.toNat % (Config.charHi.toNat - Config.charLo.toNat + 1) <
      Config.charHi.toNat - Config.charLo.toNat + 1 := Nat.mod_lt _ (Nat.succ_pos _)
  rw [toNat_ofInt64_rangeReduce g hle]
  omega

/-- The reduction of NEXTINDEX (R272) is the remainder of words. -/
theorem ofInt64_rangeReduce_index (g : Engine) {n : Word} (hn : n ≠ 0) :
    ofInt64 (rangeReduce g 0 ((n.toNat : Int) - 1)).1 = (draw64 g).1 % n := by
  have hpos : 1 ≤ n.toNat := BitVec.toNat_pos_of_ne_zero hn
  rw [← Int.natCast_one, ← Int.natCast_sub hpos, rangeReduce_below, Nat.sub_add_cancel hpos, ofInt64_natCast,
    ← BitVec.toNat_umod, BitVec.ofNat_toNat, BitVec.setWidth_eq]

/-- Settles O42: length 0 has no index, and else the remainder is one. -/
theorem nextIndexResult : Obligations.NextIndexResult := by
  intro slot s
  refine ⟨⟨rfl, rfl, rfl, rfl⟩, fun h => onEngine_empty (i := .nextIndex slot) h,
    fun g hg => ⟨exec_nextIndex_of_zero hg, fun hn => ⟨?_, ?_⟩⟩⟩
  · rw [exec_nextIndex_of_nonzero hg hn, ofInt64_rangeReduce_index g hn]
  · exact BitVec.toNat_umod.trans_lt (Nat.mod_lt _ (BitVec.toNat_pos_of_ne_zero hn))

end Sys2Proof.Machine
end

section
/-! PROOFS. SHUFFLE (spec/43_facade.md R275): the elements of the region as a sequence, which the loop permutes. -/

namespace Sys2Proof.Machine

/-! One element. -/

/-- MemRead looks at the bytes of its range alone (R70). -/
theorem memRead_congr {m m' : Memory} {a n : Nat} (h : ∀ x, a ≤ x → x < a + n → m.read x = m'.read x) :
    memRead m a n = memRead m' a n := by
  induction n generalizing a with
  | zero => rfl
  | succ n ih => rw [memRead, memRead, h a le_rfl (by omega), ih fun x hlo hhi => h x (by omega) (by omega)]

/-- A whole stored element changes that element of the sequence alone. -/
theorem readElement_memWrite {m : Memory} (hm : m.wf = true) {b i : Nat} (h : b + 8 * i + 8 ≤ Config.bufSize) (v : Word) :
    readElement (memWrite m (b + 8 * i) 8 v) b = Function.update (readElement m b) i v := by
  funext k
  rcases eq_or_ne k i with rfl | hk
  · have hread : memRead (memWrite m (b + 8 * k) 8 v) (b + 8 * k) 8 = v.toNat :=
      (memRead_memWrite hm h v).trans (Nat.mod_eq_of_lt v.isLt)
    rw [Function.update_self, readElement, hread, BitVec.ofNat_toNat, BitVec.setWidth_eq]
  · rw [Function.update_of_ne hk, readElement, readElement]
    exact congrArg _ (memRead_congr fun x _ _ => read_memWrite_outside 8 m hm _ x v h (by omega))

theorem exchanged_eq_comp_swap (f : Nat → Word) (i j : Nat) : exchanged f i j = f ∘ Equiv.swap i j := by
  funext k
  rw [exchanged, Function.comp_apply, Equiv.swap_apply_def, apply_ite f, apply_ite f]

theorem readElement_swapElements {m : Memory} (hm : m.wf = true) {b i j : Nat} (hi : b + 8 * i + 8 ≤ Config.bufSize)
    (hj : b + 8 * j + 8 ≤ Config.bufSize) :
    readElement (swapElements m b i j) b = exchanged (readElement m b) i j := by
  rw [swapElements, readElement_memWrite (wf_memWrite 8 m hm _ _) hj, readElement_memWrite hm hi,
    exchanged_eq_comp_swap, Equiv.swap_comm, Equiv.comp_swap_eq_update]

/-! The loop. -/

/-- The slot's engine makes one draw for each of the indices i to 1. -/
theorem shuffleFrom_engine (b i : Nat) (g : Engine) (m : Memory) : (shuffleFrom b i g m).1 = drawAfter g i := by
  induction i generalizing g m with
  | zero => rfl
  | succ i ih => rw [shuffleFrom, ih, drawAfter_succ, rangeReduce_engine]

/-- The elements 0..i lie in BUF if there is anything to exchange. -/
theorem readElement_shuffleFrom {b i : Nat} (h : 0 < i → b + 8 * i + 8 ≤ Config.bufSize) (g : Engine) {m : Memory}
    (hm : m.wf = true) : readElement (shuffleFrom b i g m).2 b = fisherYates i g (readElement m b) := by
  induction i generalizing g m with
  | zero => rfl
  | succ i ih =>
    have hle := shuffle_index_le g i
    have hin := h i.succ_pos
    have hindex : (rangeReduce g 0 ((i : Int) + 1)).1.toNat = (draw64 g).1.toNat % (i + 2) :=
      congrArg Int.toNat (rangeReduce_below g (i + 1))
    rw [shuffleFrom, ih (fun _ => by omega) _ (wf_swapElements m hm b _ _),
      readElement_swapElements hm hin (by omega), hindex, fisherYates, rangeReduce_engine]

/-- The loop for the n elements at b is the Fisher-Yates from their last index on. -/
theorem readElement_shuffleFrom_pred {b n : Nat} (h : b + 8 * n ≤ Config.bufSize) (g : Engine) {m : Memory}
    (hm : m.wf = true) : readElement (shuffleFrom b (n - 1) g m).2 b = fisherYates (n - 1) g (readElement m b) :=
  readElement_shuffleFrom (fun _ => by omega) g hm

/-- The loop for the n elements at b leaves every other byte as it was; it is not entered for no element. -/
theorem read_shuffleFrom_pred_outside {b n : Nat} (h : b + 8 * n ≤ Config.bufSize) (g : Engine) {m : Memory}
    (hm : m.wf = true) {x : Nat} (hx : x < b ∨ b + 8 * n ≤ x) : (shuffleFrom b (n - 1) g m).2.read x = m.read x := by
  cases n with
  | zero => rfl
  | succ n => exact read_shuffleFrom_outside b n x g m hm h hx

/-! The command. -/

section
variable {slot : SlotNum} {s : State} {g : Engine} (h : s.slot slot = some g)
include h

theorem exec_shuffle_of_misaligned (hb : s.arg[0].toNat % 8 ≠ 0) :
    exec (.shuffle slot) s = .next (errorState .misaligned (.shuffle slot) s) :=
  (onEngine_some (i := .shuffle slot) h).trans (if_pos hb)

theorem exec_shuffle_of_gt (hb : s.arg[0].toNat % 8 = 0) (hgt : Config.bufSize < s.arg[0].toNat + 8 * s.arg[1].toNat) :
    exec (.shuffle slot) s = .next (errorState .bufferRange (.shuffle slot) s) :=
  (onEngine_some (i := .shuffle slot) h).trans ((if_neg (not_not.mpr hb)).trans (if_pos hgt))

theorem exec_shuffle_of_le (hb : s.arg[0].toNat % 8 = 0) (hle : s.arg[0].toNat + 8 * s.arg[1].toNat ≤ Config.bufSize) :
    exec (.shuffle slot) s = .next { s.setSlot slot (drawAfter g (s.arg[1].toNat - 1)) with
      buf := (shuffleFrom s.arg[0].toNat (s.arg[1].toNat - 1) g s.buf).2, code := .ok } := by
  rw [← shuffleFrom_engine s.arg[0].toNat _ g s.buf]
  exact (onEngine_some (i := .shuffle slot) h).trans ((if_neg (not_not.mpr hb)).trans (if_neg hle.not_gt))

end

/-- Settles O43: the checks in order, and the loop is the document's Fisher-Yates on the elements. -/
theorem shuffleResult : Obligations.ShuffleResult := fun slot _ =>
  ⟨⟨rfl, rfl, rfl, rfl⟩, fun h => onEngine_empty (i := .shuffle slot) h, fun g hg =>
    ⟨exec_shuffle_of_misaligned hg, exec_shuffle_of_gt hg, fun hb hle hwf =>
      ⟨_, exec_shuffle_of_le hg hb hle, wf_shuffleFrom _ _ _ _ hwf,
        fun k _ => congrFun (readElement_shuffleFrom_pred hle g hwf) k,
        fun _ => read_shuffleFrom_pred_outside hle g hwf⟩⟩⟩

/-! The permutation. -/

/-- Two exchanged elements of the first n leave a permutation of them. -/
theorem map_range_exchanged_perm (f : Nat → Word) {i j n : Nat} (hi : i < n) (hj : j < n) :
    ((List.range n).map (exchanged f i j)).Perm ((List.range n).map f) := by
  rw [exchanged_eq_comp_swap, ← List.map_map]
  have hsub : (List.range n).map (Equiv.swap i j) ⊆ List.range n := by
    intro k hk
    obtain ⟨l, hl, rfl⟩ := List.mem_map.mp hk
    rw [List.mem_range] at hl ⊢
    rw [Equiv.swap_apply_def]
    split_ifs <;> assumption
  have hnodup : ((List.range n).map (Equiv.swap i j)).Nodup := List.nodup_range.map (Equiv.swap i j).injective
  exact ((List.subperm_of_subset hnodup hsub).perm_of_length_le (by simp)).map f

/-- Every exchange of the Fisher-Yates permutes the first n elements, if its last index is one of theirs. -/
theorem map_range_fisherYates_perm {i n : Nat} (h : 0 < i → i < n) (g : Engine) (f : Nat → Word) :
    ((List.range n).map (fisherYates i g f)).Perm ((List.range n).map f) := by
  induction i generalizing g f with
  | zero => exact .refl _
  | succ i ih =>
    have hin := h i.succ_pos
    have hindex : (draw64 g).1.toNat % (i + 2) < i + 2 := Nat.mod_lt _ (Nat.succ_pos _)
    exact (ih (fun _ => by omega) _ _).trans (map_range_exchanged_perm f hin (by omega))

/-- A command that completes did not raise. -/
theorem exec_ne_errorState {i : Instr} {s t : State} (hexec : exec i s = .next t) (hok : t.code = .ok) {e : ErrorCode}
    (he : e ≠ .ok) : exec i s ≠ .next (errorState e i s) := by
  intro herr
  have ht : t = errorState e i s := Host.Outcome.next.inj (hexec.symm.trans herr)
  rw [ht] at hok
  exact he hok

/-- A SHUFFLE that completes passed its checks (R275). -/
theorem shuffle_checks_of_ok {slot : SlotNum} {s t : State} (hexec : exec (.shuffle slot) s = .next t)
    (hok : t.code = .ok) : (∃ g, s.slot slot = some g) ∧ s.arg[0].toNat % 8 = 0 ∧
      s.arg[0].toNat + 8 * s.arg[1].toNat ≤ Config.bufSize := by
  have hne := fun e => exec_ne_errorState hexec hok (e := e)
  cases hg : s.slot slot with
  | none => exact absurd (onEngine_empty (i := .shuffle slot) hg) (hne _ (by decide))
  | some g =>
    have hb : s.arg[0].toNat % 8 = 0 := by
      by_contra hb
      exact hne _ (by decide) (exec_shuffle_of_misaligned hg hb)
    refine ⟨⟨g, rfl⟩, hb, ?_⟩
    by_contra hgt
    exact hne _ (by decide) (exec_shuffle_of_gt hg hb (Nat.not_le.mp hgt))

/-- Settles O44: the elements after the loop are those of the Fisher-Yates, which exchanges within the region. -/
theorem shufflePermutesTheElements : Obligations.ShufflePermutesTheElements := by
  intro slot s t hwf hexec hok
  obtain ⟨⟨g, hg⟩, hb, hle⟩ := shuffle_checks_of_ok hexec hok
  rw [exec_shuffle_of_le hg hb hle] at hexec
  cases hexec
  rw [readElement_shuffleFrom_pred hle g hwf]
  exact map_range_fisherYates_perm (fun _ => by omega) g _

end Sys2Proof.Machine
end

section
/-! PROOFS. What a word written to CMD reports (spec/60_exceptions.md R300 to R305): a word raises and changes STATUS
and ERRCMD only, or completes and keeps STICKY and ERRCMD; and every step answers a next state. -/

namespace Sys2Proof.Machine

/-! Raising and completing. -/

theorem runWord_of_decode_error {w : Word32} {e : DecodeError} (h : decode w = .error e) (s : State) :
    runWord w s = .next (raise .illegalCommand w s) := by
  rw [runWord, h]

/-- Everything a word written to CMD can do to STATUS and ERRCMD: raise, or complete. -/
theorem runWord_cases {w : Word32} {s t : State} (h : runWord w s = .next t) :
    (∃ e, e ≠ .ok ∧ t = raise e w s) ∨ (t.code = .ok ∧ t.sticky = s.sticky ∧ t.errcmd = s.errcmd) := by
  cases hw : decode w with
  | error e =>
    rw [runWord_of_decode_error hw] at h
    cases h
    exact .inl ⟨_, by decide, rfl⟩
  | ok i =>
    rw [runWord_of_decode hw] at h
    have hanswers := exec_answers i s
    rw [h] at hanswers
    cases hanswers with
    | raised e he => exact .inl ⟨e, he, by rw [(encodeOfDecodeIsTheWord w i hw).1]⟩
    | completed n hwrite => exact .inr ⟨rfl, rfl, rfl⟩

/-- Settles O15: a word that completes leaves CODE = OK, so this one raised. -/
theorem raisingChangesOnlyStatus : Obligations.RaisingChangesOnlyStatus := by
  intro w s t h hcode
  obtain ⟨e, -, rfl⟩ | ⟨hok, -⟩ := runWord_cases h
  · rfl
  · exact absurd hok hcode

/-- Settles O16: a word that raises leaves another code than OK, so this one completed. -/
theorem successKeepsStickyAndErrcmd : Obligations.SuccessKeepsStickyAndErrcmd := by
  intro w s t h hcode
  obtain ⟨e, he, rfl⟩ | ⟨-, hkept⟩ := runWord_cases h
  · exact absurd hcode he
  · exact hkept

/-! The checks of decoding. -/

/-- A word that decodes passes the checks of R301. -/
theorem not_illegalWord_of_decode {w : Word32} {i : Instr} (h : decode w = .ok i) : ¬IllegalWord w := by
  obtain ⟨hrsv, hfields⟩ := decode_eq_ok_iff.mp h
  obtain ⟨hmap, he, hd⟩ := fieldsAre_iff.mp hfields
  rintro (hbits | hop | ⟨hflagE, hop⟩ | ⟨hflagD, hop⟩ | hslot)
  · exact hbits hrsv
  · exact hop (isSome_opcodeMap_iff.mp (Option.isSome_of_eq_some hmap))
  · exact hop (he hflagE)
  · exact hop (hd hflagD)
  · exact (slot_lt_nslots (slotField w)).not_ge hslot

/-- Settles O7: an illegal word is refused by the decoder, whichever check it fails. -/
theorem illegalWordRaisesIllegalCommand : Obligations.IllegalWordRaisesIllegalCommand := by
  intro s w hillegal
  cases hw : decode w with
  | error e => exact runWord_of_decode_error hw s
  | ok i => exact absurd hillegal (not_illegalWord_of_decode hw)

/-! The codes of each command. -/

/-- An outcome whose next state has one of the codes given. -/
def Reports (codes : List ErrorCode) (o : Host.Outcome State Fault Refusal) : Prop := ∀ t, o = .next t → t.code ∈ codes

theorem ok_mem_reportable (i : Instr) : .ok ∈ reportable i := by
  cases i <;> exact List.mem_cons_self

/-- R302: NotConfigured is a code of the drawing commands, and of no CFG.* command. -/
theorem notConfigured_mem_reportable_iff (i : Instr) : .notConfigured ∈ reportable i ↔ 0x10 ≤ i.op.toNat := by
  cases i <;> simp [reportable, Instr.op]

theorem reports_complete (i : Instr) (s : State) : Reports (reportable i) (complete s) := by
  intro t h
  cases h
  exact ok_mem_reportable i

theorem reports_raiseFor {codes : List ErrorCode} {e : ErrorCode} (he : e ∈ codes) (i : Instr) (s : State) :
    Reports codes (raiseFor e i s) := by
  intro t h
  cases h
  exact he

theorem reports_ite {codes : List ErrorCode} {c : Prop} [Decidable c] {x y : Host.Outcome State Fault Refusal}
    (hx : Reports codes x) (hy : Reports codes y) : Reports codes (if c then x else y) := by
  split
  · exact hx
  · exact hy

theorem reports_onEngine {i : Instr} {s : State} {k : Engine → Host.Outcome State Fault Refusal}
    (hi : 0x10 ≤ i.op.toNat) (hk : ∀ g, Reports (reportable i) (k g)) : Reports (reportable i) (onEngine i s k) := by
  intro t h
  obtain ⟨-, rfl⟩ | ⟨g, -, hg⟩ := onEngine_cases h
  · exact (notConfigured_mem_reportable_iff i).mpr hi
  · exact hk g t hg

/-- Settles O17: a check that fails raises a code of its command, and a command that passes its checks completes. -/
theorem commandsReportOnlyTheirCodes : Obligations.CommandsReportOnlyTheirCodes := by
  intro i s
  change Reports (reportable i) (exec i s)
  cases i with
  | cfgSm | cfgXs | cfgMt | cfgCc => exact reports_complete _ _
  | cfgXss | cfgPcg | cfgCmwc =>
    exact reports_ite (reports_raiseFor (by simp [reportable]) _ _) (reports_complete _ _)
  | next64 | next32 | nextDbl | nextPct | gamble | gambleD | nextBool | nextChar | nextPolar =>
    exact reports_onEngine (by simp [Instr.op]) fun g => reports_complete _ _
  | nextInt | nextBytes | nextDRange | nextIndex =>
    exact reports_onEngine (by simp [Instr.op]) fun g =>
      reports_ite (reports_raiseFor (by simp [reportable]) _ _) (reports_complete _ _)
  | shuffle =>
    exact reports_onEngine (by simp [Instr.op]) fun g =>
      reports_ite (reports_raiseFor (by simp [reportable]) _ _)
        (reports_ite (reports_raiseFor (by simp [reportable]) _ _) (reports_complete _ _))

/-! The configured-slot check. -/

/-- R231: every drawing command begins with the check of its slot. -/
theorem exec_of_empty {i : Instr} {s : State} (hdraws : 0x10 ≤ i.op.toNat) (hempty : s.slot i.slot = none) :
    exec i s = .next (errorState .notConfigured i s) := by
  cases i with
  | cfgSm | cfgXs | cfgXss | cfgMt | cfgPcg | cfgCmwc | cfgCc => simp [Instr.op] at hdraws
  | _ => exact onEngine_empty hempty

/-- Settles O14: the check of the slot comes first in a drawing command, and a CFG.* command cannot report its code. -/
theorem emptySlotRaisesNotConfigured : Obligations.EmptySlotRaisesNotConfigured := by
  intro i s
  refine ⟨exec_of_empty, fun hcfg t h hcode => ?_⟩
  have hreported : .notConfigured ∈ reportable i := hcode ▸ commandsReportOnlyTheirCodes i s t h
  exact hcfg.not_ge ((notConfigured_mem_reportable_iff i).mp hreported)

/-! Every step answers. -/

theorem Answers.exists_eq_next {i : Instr} {s : State} {o : Host.Outcome State Fault Refusal} (h : Answers i s o) :
    ∃ t, o = .next t := by
  cases h with
  | raised e he => exact ⟨_, rfl⟩
  | completed n hwrite => exact ⟨_, rfl⟩

theorem exists_exec_eq_next (i : Instr) (s : State) : ∃ t, exec i s = .next t := (exec_answers i s).exists_eq_next

theorem exists_runWord_eq_next (w : Word32) (s : State) : ∃ t, runWord w s = .next t := by
  cases hw : decode w with
  | error e => exact ⟨_, runWord_of_decode_error hw s⟩
  | ok i => exact runWord_of_decode hw s ▸ exists_exec_eq_next i s

theorem exists_writeTarget_eq_next (tg : Target) (v : Word) (s : State) : ∃ t, writeTarget tg v s = .next t := by
  cases tg with
  | cmd => exact exists_runWord_eq_next _ s
  | _ => exact ⟨_, rfl⟩

theorem exists_step_eq_next (s : State) : ∃ t, step s = .next t := by
  match hops : s.hostOps with
  | [] => exact ⟨s, by rw [step, stepHost, hops]⟩
  | .read off :: rest => exact ⟨_, step_read hops⟩
  | .write off v :: rest => exact step_write hops ▸ exists_writeTarget_eq_next _ v _
  | .reset :: rest => exact ⟨_, step_reset hops⟩

/-- Settles O18: a command raises or completes, and a write to CMD is the one operation that runs a command. -/
theorem everyStepAnswersANextState : Obligations.EveryStepAnswersANextState :=
  ⟨exists_exec_eq_next, exists_step_eq_next⟩

end Sys2Proof.Machine
end

section
/-! PROOFS. The idle block (spec/70_reset_and_hazards.md R342). -/

namespace Sys2Proof.Machine

/-- The host does nothing: so does the block. -/
theorem step_idle {s : State} (h : s.hostOps = []) : step s = .next s := by
  rw [step, stepHost, h]

/-- Settles O13: a step performs the host's next operation, and there is none. -/
theorem blockWaitsForTheHost : Obligations.BlockWaitsForTheHost := fun _ => step_idle

end Sys2Proof.Machine
end
